-- ==== Sys2Proof/Word.lean ====
section
/-!
DEFINITION. The words of the machine: the byte of registers, memory cells, operands and flags
(00_scope.md R9, 10_state.md R16) and the nine-bit word of the program counter (10_state.md R23).
-/
namespace Sys2Proof

/-- An unsigned 8-bit value: register, memory cell, operand byte, flags (00_scope.md R9). -/
abbrev Byte := BitVec 8

/-- A program-counter value, nine bits wide so that 0x100 to 0x102 can be held (10_state.md R23). -/
abbrev PcWord := BitVec 9

/-- The name of a general register, R0 to R7 (10_state.md R16). -/
abbrev Reg := Fin 8

end Sys2Proof
end

