-- ==== Sys2Proof/Config.lean ====
section
/-!
DEFINITION. The values the spec leaves open, as opaque constants: nothing in Lean can evaluate one or
prove anything about it, so a theorem about the model holds whatever they are. A free value that is
drawn afresh each time is a function of State's draw counter (assumption log 1, 2, 4).
-/
namespace Sys2Proof

/-- The timer input sampled at the first interrupt check after reset (60_exceptions.md R170). -/
opaque Config.resetTick : Bool

/-- The timer input of each later interrupt check: `tick` is "a free draw at every check"
(60_exceptions.md R170; 92_eei_decisions.md D10). -/
opaque Config.tick : Nat → Bool

/-- `draw(checkpoint)` at reset: the content of cell 0xF7 before any tick (10_state.md R35). -/
opaque Config.resetCheckpoint : Byte

/-- `draw(checkpoint)` at a tick: the timestamp byte written to 0xF7 (60_exceptions.md R171). -/
opaque Config.checkpoint : Nat → Byte

/-- `draw(scratch)`: the content of cell 0xF5 after CALL, RET and interrupt entry
(43_control_transfer.md R136; 92_eei_decisions.md D11). -/
opaque Config.scratch : Nat → Byte

/-- The registers after a fatal error (40_control_unit.md R85: not determined). -/
opaque Config.faultReg : Nat → Reg → Byte

/-- The flags after a fatal error (40_control_unit.md R85: not determined). -/
opaque Config.faultFl : Nat → Byte

/-- The program counter after a fatal error (40_control_unit.md R85: not determined). -/
opaque Config.faultPc : Nat → PcWord

/-- Each memory cell after a fatal error (40_control_unit.md R85: not determined). -/
opaque Config.faultCell : Nat → Nat → Byte

/-- `TIME_UNIT`, the length of one timer unit (00_scope.md R7). No rule of the spec reads it. -/
opaque Config.timeUnit : Nat

end Sys2Proof
end

