-- ==== Sys2Proof/Machine/State.lean ====
section
/-!
DEFINITION. The state of the engine as plain data, holding every piece of state of 10_state.md and
20_memory.md, and the state after reset (10_state.md R35, 70_reset_and_hazards.md R197).
-/
namespace Sys2Proof.Machine

/-- The control unit's run state (10_state.md R29). -/
inductive RunState where
  | running
  | halted
  | faulted
deriving DecidableEq, Repr

/-- The kinds of fatal error, and the spec's own stop `Unmodelled` (60_exceptions.md R163, R168).
No meaning raises `unsupportedAluOp` (30_encoding.md R65). -/
inductive FaultKind where
  | unknownOpcode
  | unsupportedAluOp
  | divisionByZero
  | outOfBoundsAccess
  | unmodelled
deriving DecidableEq, Repr

/-- The detail a fault record holds, by cause (60_exceptions.md R164 to R168). -/
inductive FaultDetail where
  /-- The offending opcode byte: UnknownOpcode, DivisionByZero. -/
  | opcode (op : Byte)
  /-- The address above 0xFF of an opcode or operand fetch. -/
  | fetchAddress (a : PcWord)
  /-- The register operand byte above 7. -/
  | registerIndex (b : Byte)
  /-- SPDec found this SP, 0x00. -/
  | stackOverflow (sp : Byte)
  /-- SPInc found this SP, 0xFF. -/
  | stackUnderflow (sp : Byte)
  /-- The return address of a CALL, 0x100, that no cell can hold. -/
  | returnAddress (a : PcWord)
  /-- The pc above 0xFF that an interrupt entry would have to push. -/
  | pushedPc (a : PcWord)
deriving DecidableEq, Repr

/-- The fault record `(kind, pc, detail)` (10_state.md R30). -/
structure FaultRecord where
  kind : FaultKind
  pc : PcWord
  detail : FaultDetail
deriving DecidableEq, Repr

/-- An event of the console output channel (10_state.md R31). -/
inductive ConsoleEvent where
  | number (v : Byte)
  | char (v : Byte)
deriving DecidableEq, Repr

/-- The 256 cells of memory (20_memory.md R36). Two cells hold free values and have a home of their own
(assumption log 3): `scratch` is cell 0xF5, `checkpoint` is cell 0xF7 (20_memory.md R39). `cells` lists
the others: addresses strictly rising, no entry 0x00, which is what an unlisted address reads as. -/
structure Memory where
  cells : List Host.Cell
  scratch : Byte
  checkpoint : Byte
deriving DecidableEq, Repr

/-- The state of the engine. -/
structure State where
  /-- R0 to R7; R5 is the interrupt mask, R6 the interrupt status, R7 the stack pointer
  (10_state.md R16 to R19). -/
  regs : Vector Byte 8
  /-- The flags register FL: bit 0 E, bit 1 G, bit 2 L (10_state.md R25). -/
  fl : Byte
  /-- The program counter (10_state.md R22, R23). -/
  pc : PcWord
  /-- The run state (10_state.md R29). -/
  state : RunState
  /-- The fault record (10_state.md R30). -/
  fault : Option FaultRecord
  /-- The console output channel, oldest event first (10_state.md R31). -/
  console : List ConsoleEvent
  /-- Memory (20_memory.md R36). -/
  mem : Memory
  /-- The timer input that the next interrupt check samples (60_exceptions.md R170; the model's own
  field, assumption log 1). -/
  tick : Bool
  /-- How many draws the run has made (the model's own field, assumption log 2). -/
  draws : Nat
deriving DecidableEq, Repr

/-- Why `step` answers no state: the engine is in a terminal state and no cycle runs (10_state.md R29;
93_implementation_defined.md I11 and I12 call it stuck). A FATAL ERROR of the spec is not one of these: it
is a next state whose `state` is `faulted` (assumption log 4, 5). -/
inductive Fault where
  /-- Raised by `step` when `state` is HALTED. Safe: no cycle runs on the hardware either. -/
  | halted
  /-- Raised by `step` when `state` is FAULTED. Safe: no cycle runs on the hardware either. -/
  | faulted
deriving DecidableEq, Repr

/-- Instructions with no meaning in the model. -/
inductive Refusal where
  /-- Raised by an arm of `exec` whose instruction has no meaning yet; no arm of this model does. Safe. -/
  | notModelled (mnemonic : String)
deriving DecidableEq, Repr

/-- Memory after construction with nothing loaded: 0x00 everywhere but the checkpoint cell, which is not
determined (10_state.md R35, 70_reset_and_hazards.md R197). -/
def Memory.reset : Memory := ⟨[], 0x00#8, Config.resetCheckpoint⟩

/-- The engine right after reset, nothing loaded (10_state.md R35). -/
def State.reset : State where
  regs := #v[0x00#8, 0x00#8, 0x00#8, 0x00#8, 0x00#8, 0x00#8, 0x00#8, 0xF4#8]
  fl := 0x00#8
  pc := 0x000#9
  state := .running
  fault := none
  console := []
  mem := Memory.reset
  tick := Config.resetTick
  draws := 0

end Sys2Proof.Machine
end

