-- ==== Sys2Proof/Machine/Ops.lean ====
section
/-!
DEFINITION. The operations of the engine: registers, memory cells, stack primitives, fatal errors, the
console, the timer step, and taking an interrupt with the return from one.
An operation that can raise a fatal error answers the fault record instead of a state; `settle` turns
that into the FAULTED state.
-/
namespace Sys2Proof.Machine

/-! ### Registers -/

/-- The stack pointer R7 (10_state.md R17). -/
abbrev spReg : Reg := 7

/-- The interrupt mask R5 (10_state.md R19). -/
abbrev imReg : Reg := 5

/-- The interrupt status R6 (10_state.md R19). -/
abbrev isReg : Reg := 6

/-- Read a general register: `x[i]` (10_state.md R16). -/
def State.reg (s : State) (r : Reg) : Byte := s.regs[r]

/-- Write a general register: `x[i] <- v` (10_state.md R16). No register is hardwired. -/
def State.setReg (s : State) (r : Reg) (v : Byte) : State := { s with regs := s.regs.set r v }

/-- Write the flags register (10_state.md R26). -/
def State.setFl (s : State) (v : Byte) : State := { s with fl := v }

/-- Write `pc` with an 8-bit target (10_state.md R23, 43_control_transfer.md R135). -/
def State.jumpTo (s : State) (t : Byte) : State := { s with pc := t.zeroExtend 9 }

/-- Phase ADVANCE: `pc <- A + n + 1` for `n` operand bytes (40_control_unit.md R82). For an instruction
that was fetched `A` is at most 0xFF, so the nine-bit sum is not reduced. -/
def State.advance (s : State) (n : Nat) : State := { s with pc := s.pc + BitVec.ofNat 9 (n + 1) }

/-! ### Memory -/

/-- The address of the scratch cell (20_memory.md R39). -/
abbrev scratchAddr : Nat := 0xF5

/-- The address of the checkpoint cell (20_memory.md R39). -/
abbrev checkpointAddr : Nat := 0xF7

/-- What an unlisted address reads as: the reset content 0x00 (10_state.md R35). -/
abbrev unlisted : Byte := 0x00#8

/-- Read a listed cell. -/
def readCells : List Host.Cell → Nat → Byte
  | [], _ => unlisted
  | (b, w) :: rest, a => if b = a then w else readCells rest a

/-- Put an entry before `rest`, but not one that equals what an unlisted address reads as. -/
def consCell (a : Nat) (v : Byte) (rest : List Host.Cell) : List Host.Cell :=
  if v = unlisted then rest else (a, v) :: rest

/-- Write a cell of a list in canonical form, keeping the form. -/
def writeCells : List Host.Cell → Nat → Byte → List Host.Cell
  | [], a, v => consCell a v []
  | (b, w) :: rest, a, v =>
    if a < b then consCell a v ((b, w) :: rest)
    else if a = b then consCell a v rest
    else (b, w) :: writeCells rest a v

/-- Read the cell at an address of 0 to 0xFF (20_memory.md R36, R37). -/
def Memory.read (m : Memory) (a : Nat) : Byte :=
  if a = scratchAddr then m.scratch
  else if a = checkpointAddr then m.checkpoint
  else readCells m.cells a

/-- Write the cell at an address of 0 to 0xFF (20_memory.md R36, R37). -/
def Memory.write (m : Memory) (a : Nat) (v : Byte) : Memory :=
  if a = scratchAddr then { m with scratch := v }
  else if a = checkpointAddr then { m with checkpoint := v }
  else { m with cells := writeCells m.cells a v }

/-- Addresses above `low` and strictly rising, each within memory and not one of the two cells with a
home of their own, and no entry equal to what an unlisted address reads as. -/
def cellsWfFrom (low : Nat) : List Host.Cell → Bool
  | [] => true
  | (a, v) :: rest =>
    decide (low ≤ a) && decide (a ≤ 0xFF) && decide (a ≠ scratchAddr) && decide (a ≠ checkpointAddr)
      && decide (v ≠ unlisted) && cellsWfFrom (a + 1) rest

/-- Memory is in its one canonical form. -/
def Memory.wf (m : Memory) : Bool := cellsWfFrom 0 m.cells

/-- The memory whose cells below `n` hold `f`, and the others their reset content or what `m` held. -/
def Memory.fill (f : Nat → Byte) (m : Memory) : Nat → Memory
  | 0 => m
  | n + 1 => (Memory.fill f m n).write n (f n)

/-- Data read at an address held in an 8-bit register: never out of bounds (42_data_transfer.md R120). -/
def State.load (s : State) (a : Byte) : Byte := s.mem.read a.toNat

/-- Data write at an address held in an 8-bit register: never out of bounds (42_data_transfer.md R120). -/
def State.store (s : State) (a v : Byte) : State := { s with mem := s.mem.write a.toNat v }

/-- A byte written to the scratch cell 0xF5 that the spec does not determine: `draw(scratch)`
(43_control_transfer.md R136, 60_exceptions.md R176; 92_eei_decisions.md D11). -/
def State.drawScratch (s : State) : State :=
  { s.store 0xF5#8 (Config.scratch s.draws) with draws := s.draws + 1 }

/-! ### Fatal errors -/

/-- The code of each kind of fault (60_exceptions.md R164 to R168; 92_eei_decisions.md D19). -/
def FaultKind.code : FaultKind → Nat
  | .unknownOpcode => 1
  | .unsupportedAluOp => 2
  | .divisionByZero => 3
  | .outOfBoundsAccess => 4
  | .unmodelled => 5

/-- `raise E(info)`: the fault record, with `pc` as it stands, which is the instruction's address, or the
cycle's `pc` in an interrupt entry (10_state.md R30, 60_exceptions.md R167). -/
def raise {α : Type} (s : State) (kind : FaultKind) (detail : FaultDetail) : Except FaultRecord α :=
  .error ⟨kind, s.pc, detail⟩

/-- The FAULTED state: the fault record is set and the console keeps the events emitted before; registers,
FL, `pc` and memory are not determined, so each holds a free value (40_control_unit.md R85). -/
def State.enterFaulted (s : State) (r : FaultRecord) : State where
  regs := Vector.ofFn (Config.faultReg s.draws)
  fl := Config.faultFl s.draws
  pc := Config.faultPc s.draws
  state := .faulted
  fault := some r
  console := s.console
  mem := Memory.fill (Config.faultCell s.draws) Memory.reset 256
  tick := s.tick
  draws := s.draws + 1

/-- The outcome of a cycle begun in `s`: its final state, or FAULTED with the error it raised
(40_control_unit.md R85). -/
def settle (s : State) : Except FaultRecord State → Host.Outcome State Fault Refusal
  | .ok t => .next t
  | .error r => .next (s.enterFaulted r)

/-! ### Stack -/

/-- `SPDec()` (20_memory.md R46). -/
def spDec (s : State) : Except FaultRecord State :=
  if s.reg spReg = 0x00#8 then raise s .outOfBoundsAccess (.stackOverflow 0x00#8)
  else .ok (s.setReg spReg (s.reg spReg - 1))

/-- `SPInc()` (20_memory.md R47). -/
def spInc (s : State) : Except FaultRecord State :=
  if s.reg spReg = 0xFF#8 then raise s .outOfBoundsAccess (.stackUnderflow 0xFF#8)
  else .ok (s.setReg spReg (s.reg spReg + 1))

/-- `Push(v)` (20_memory.md R48). -/
def push (v : Byte) (s : State) : Except FaultRecord State := do
  let s ← spDec s
  .ok (s.store (s.reg spReg) v)

/-- `Pop()` (20_memory.md R49): the byte and the state after the increment. -/
def pop (s : State) : Except FaultRecord (Byte × State) := do
  let v := s.load (s.reg spReg)
  let s ← spInc s
  .ok (v, s)

/-- Push registers in the order listed. -/
def pushRegs : List Reg → State → Except FaultRecord State
  | [], s => .ok s
  | r :: rs, s => do
    let s ← push (s.reg r) s
    pushRegs rs s

/-- Pop into registers in the order listed: `x[r] <- Pop()` for each. -/
def popRegs : List Reg → State → Except FaultRecord State
  | [], s => .ok s
  | r :: rs, s => do
    let (v, s) ← pop s
    popRegs rs (s.setReg r v)

/-! ### Console -/

/-- `emit`: append an event to the console output channel (10_state.md R31, 44_system.md R162). -/
def State.emit (s : State) (e : ConsoleEvent) : State := { s with console := s.console ++ [e] }

/-! ### Interrupts: the INT_CHECK phase -/

/-- The timer step (60_exceptions.md R170 to R172), and the draw of the next check's `tick`.
On a tick R6 bit 0 is set and the checkpoint cell takes a timestamp the spec does not determine; without
a tick neither changes (R6 is or-ed with 0). -/
def timerStep (s : State) : State :=
  { s with
    regs := s.regs.set isReg (s.reg isReg ||| (if s.tick then 0x01#8 else 0x00#8))
    mem := { s.mem with checkpoint := if s.tick then Config.checkpoint s.draws else s.mem.checkpoint }
    tick := Config.tick s.draws
    draws := s.draws + 1 }

/-- Whether line `i` is pending and enabled: bit `i` of `x[5] & x[6]` (60_exceptions.md R173). -/
def linePending (s : State) (i : Fin 8) : Bool := (s.reg imReg).getLsbD i && (s.reg isReg).getLsbD i

/-- The interrupt lines in ascending order (60_exceptions.md R174). -/
def lines : List (Fin 8) := [0, 1, 2, 3, 4, 5, 6, 7]

/-- The line taken: the lowest one pending and enabled (60_exceptions.md R173, R174). When R6 is 0 no bit
of it is set, so there is none. -/
def lineTaken (s : State) : Option (Fin 8) := lines.find? (linePending s)

/-- TAKING AN INTERRUPT: the entry sequence for line `i` (60_exceptions.md R176, R177, R179). The status
bit is cleared; a `pc` above 0xFF stops the run; `pc`, FL and R0 to R6 are pushed; the mask becomes 0; the
scratch cell takes a draw; `pc` becomes the vector 0xF8 + i. -/
def interruptEntry (i : Fin 8) (s : State) : Except FaultRecord State := do
  let s := s.setReg isReg (s.reg isReg &&& ~~~(BitVec.ofNat 8 (2 ^ i.val)))
  if s.pc.toNat > 0xFF then raise s .unmodelled (.pushedPc s.pc)
  else do
    let s ← push (s.pc.truncate 8) s
    let s ← push s.fl s
    let s ← pushRegs [0, 1, 2, 3, 4, 5, 6] s
    .ok (((s.setReg imReg 0x00#8).drawScratch).jumpTo (BitVec.ofNat 8 (0xF8 + i.val)))

/-- RETURN FROM AN INTERRUPT: the pops of IRET (43_control_transfer.md R153). R7 is not popped. -/
def interruptReturn (s : State) : Except FaultRecord State := do
  let s ← popRegs [6, 5, 4, 3, 2, 1, 0] s
  let (f, s) ← pop s
  let (p, s) ← pop (s.setFl f)
  .ok (s.jumpTo p)

/-- The dispatch step: at most one interrupt is taken per check (60_exceptions.md R173 to R175). -/
def dispatchInterrupt (s : State) : Except FaultRecord State :=
  match lineTaken s with
  | none => .ok s
  | some i => interruptEntry i s

/-- Phase INT_CHECK: the timer step, then the dispatch step (60_exceptions.md R169, R184). -/
def intCheck (s : State) : Except FaultRecord State := dispatchInterrupt (timerStep s)

end Sys2Proof.Machine
end

