-- ==== Sys2Proof/Machine/Flags.lean ====
section
/-!
DEFINITION. The flags register: what CMP writes (41_alu.md R99, R118) and what the conditional jumps test
(43_control_transfer.md R141, R149). No other ALU operation writes FL (41_alu.md R91).
-/
namespace Sys2Proof.Machine

/-- FL after CMP of `a` with `b`, the whole byte: E 0x01, L 0x04, G 0x02, by the unsigned order
(41_alu.md R118; 92_eei_decisions.md D18). -/
def compareFlags (a b : Byte) : Byte :=
  if a.toNat = b.toNat then 0x01#8 else if a.toNat < b.toNat then 0x04#8 else 0x02#8

/-- Bit 0, Equal (10_state.md R25). -/
def flagE (fl : Byte) : Bool := fl.getLsbD 0

/-- Bit 1, GreaterThan (10_state.md R25). -/
def flagG (fl : Byte) : Bool := fl.getLsbD 1

/-- Bit 2, LessThan (10_state.md R25). -/
def flagL (fl : Byte) : Bool := fl.getLsbD 2

/-- JEQ: Equal bit set. -/
def condEq (fl : Byte) : Bool := flagE fl

/-- JNE: Equal bit clear. -/
def condNe (fl : Byte) : Bool := !flagE fl

/-- JGT: GreaterThan bit set. -/
def condGt (fl : Byte) : Bool := flagG fl

/-- JGE: Equal or GreaterThan set. -/
def condGe (fl : Byte) : Bool := flagE fl || flagG fl

/-- JLT: LessThan bit set. -/
def condLt (fl : Byte) : Bool := flagL fl

/-- JLE: Equal or LessThan set. -/
def condLe (fl : Byte) : Bool := flagE fl || flagL fl

end Sys2Proof.Machine
end

