-- ==== Sys2Proof/Machine/Operands.lean ====
section
/-!
DEFINITION. Register operands: the REGCHECK phase (40_control_unit.md R79). Every register operand byte is
checked, byte 1 first and then byte 2, before the instruction has any effect and whether or not it is read.
-/
namespace Sys2Proof.Machine

/-- The register an operand byte names; a byte above 7 raises OutOfBoundsAccess with the byte as detail
(30_encoding.md R61, 40_control_unit.md R79). -/
def regOperand (s : State) (b : Byte) : Except FaultRecord Reg :=
  if h : b.toNat < 8 then .ok ⟨b.toNat, h⟩ else raise s .outOfBoundsAccess (.registerIndex b)

/-- An instruction with one register operand: REGCHECK, then `body`. -/
def withReg (ra : Byte) (s : State) (body : Reg → Except FaultRecord State) :
    Host.Outcome State Fault Refusal :=
  settle s do
    let a ← regOperand s ra
    body a

/-- An instruction with two register operands: REGCHECK of byte 1, then of byte 2, then `body`. -/
def withRegs (ra rb : Byte) (s : State) (body : Reg → Reg → Except FaultRecord State) :
    Host.Outcome State Fault Refusal :=
  settle s do
    let a ← regOperand s ra
    let b ← regOperand s rb
    body a b

end Sys2Proof.Machine
end

