-- ==== Sys2Proof/Machine/Alu.lean ====
section
/-!
DEFINITION. The ALU and its 14 instructions (41_alu.md). Operands are read before anything is written
(R89); results are computed on exact integers and reduced modulo 256 (R90, R101).
-/
namespace Sys2Proof.Machine

/-! ### The operations on bytes -/

/-- `(a + b) mod 256` (41_alu.md R93). -/
def aluAdd (a b : Byte) : Byte := BitVec.ofNat 8 (a.toNat + b.toNat)

/-- `(a - b) mod 256` (41_alu.md R93). -/
def aluSub (a b : Byte) : Byte := BitVec.ofInt 8 ((a.toNat : Int) - (b.toNat : Int))

/-- `(a * b) mod 256` (41_alu.md R94). -/
def aluMul (a b : Byte) : Byte := BitVec.ofNat 8 (a.toNat * b.toNat)

/-- The integer quotient, for a divisor other than 0 (41_alu.md R95). -/
def aluDiv (a b : Byte) : Byte := BitVec.ofNat 8 (a.toNat / b.toNat)

/-- The remainder, for a divisor other than 0 (41_alu.md R96). -/
def aluMod (a b : Byte) : Byte := BitVec.ofNat 8 (a.toNat % b.toNat)

/-- Bitwise and (41_alu.md R98). -/
def aluAnd (a b : Byte) : Byte := a &&& b

/-- Bitwise or (41_alu.md R98). -/
def aluOr (a b : Byte) : Byte := a ||| b

/-- Bitwise exclusive or (41_alu.md R98). -/
def aluXor (a b : Byte) : Byte := a ^^^ b

/-- `(a * 2^b) mod 256`; the count is not reduced (41_alu.md R97). -/
def aluShl (a b : Byte) : Byte := BitVec.ofNat 8 (a.toNat * 2 ^ b.toNat)

/-- `a / 2^b`, zero fill; the count is not reduced (41_alu.md R97). -/
def aluShr (a b : Byte) : Byte := BitVec.ofNat 8 (a.toNat / 2 ^ b.toNat)

/-- `(a + 1) mod 256` (41_alu.md R93). -/
def aluInc (a : Byte) : Byte := BitVec.ofNat 8 (a.toNat + 1)

/-- `(a - 1) mod 256` (41_alu.md R93). -/
def aluDec (a : Byte) : Byte := BitVec.ofInt 8 ((a.toNat : Int) - 1)

/-- `255 - a`, the complement of all 8 bits (41_alu.md R98). -/
def aluNot (a : Byte) : Byte := BitVec.ofNat 8 (255 - a.toNat)

/-! ### The instruction shapes -/

/-- A two-operand ALU instruction: `x[dest] <- f x[dest] x[src]`, then `pc <- A + 3` (41_alu.md R90, R104). -/
def alu2 (f : Byte → Byte → Byte) (ra rb : Byte) (s : State) : Host.Outcome State Fault Refusal :=
  withRegs ra rb s fun a b => .ok ((s.setReg a (f (s.reg a) (s.reg b))).advance 2)

/-- A division: DivisionByZero with the opcode byte when the divisor register holds 0, before any write
(41_alu.md R95, R96, R100; 60_exceptions.md R166). -/
def aluDivide (op : Byte) (f : Byte → Byte → Byte) (ra rb : Byte) (s : State) :
    Host.Outcome State Fault Refusal :=
  withRegs ra rb s fun a b =>
    if s.reg b = 0x00#8 then raise s .divisionByZero (.opcode op)
    else .ok ((s.setReg a (f (s.reg a) (s.reg b))).advance 2)

/-- A one-operand ALU instruction: `x[dest] <- f x[dest]`, then `pc <- A + 2` (41_alu.md R103, R104). -/
def alu1 (f : Byte → Byte) (ra : Byte) (s : State) : Host.Outcome State Fault Refusal :=
  withReg ra s fun a => .ok ((s.setReg a (f (s.reg a))).advance 1)

/-! ### The meanings -/

/-- ADD (41_alu.md R105). -/
def execAdd (ra rb : Byte) (s : State) : Host.Outcome State Fault Refusal := alu2 aluAdd ra rb s

/-- SUB (41_alu.md R106). -/
def execSub (ra rb : Byte) (s : State) : Host.Outcome State Fault Refusal := alu2 aluSub ra rb s

/-- MUL (41_alu.md R107). -/
def execMul (ra rb : Byte) (s : State) : Host.Outcome State Fault Refusal := alu2 aluMul ra rb s

/-- DIV (41_alu.md R108). -/
def execDiv (ra rb : Byte) (s : State) : Host.Outcome State Fault Refusal :=
  aluDivide 0xA3#8 aluDiv ra rb s

/-- MOD (41_alu.md R109). -/
def execMod (ra rb : Byte) (s : State) : Host.Outcome State Fault Refusal :=
  aluDivide 0xA4#8 aluMod ra rb s

/-- INC (41_alu.md R110). -/
def execInc (ra : Byte) (s : State) : Host.Outcome State Fault Refusal := alu1 aluInc ra s

/-- DEC (41_alu.md R111). -/
def execDec (ra : Byte) (s : State) : Host.Outcome State Fault Refusal := alu1 aluDec ra s

/-- AND (41_alu.md R112). -/
def execAnd (ra rb : Byte) (s : State) : Host.Outcome State Fault Refusal := alu2 aluAnd ra rb s

/-- OR (41_alu.md R113). -/
def execOr (ra rb : Byte) (s : State) : Host.Outcome State Fault Refusal := alu2 aluOr ra rb s

/-- XOR (41_alu.md R114). -/
def execXor (ra rb : Byte) (s : State) : Host.Outcome State Fault Refusal := alu2 aluXor ra rb s

/-- NOT (41_alu.md R115). -/
def execNot (ra : Byte) (s : State) : Host.Outcome State Fault Refusal := alu1 aluNot ra s

/-- SHL (41_alu.md R116). -/
def execShl (ra rb : Byte) (s : State) : Host.Outcome State Fault Refusal := alu2 aluShl ra rb s

/-- SHR (41_alu.md R117). -/
def execShr (ra rb : Byte) (s : State) : Host.Outcome State Fault Refusal := alu2 aluShr ra rb s

/-- CMP: FL is written, no register is (41_alu.md R99, R118). -/
def execCmp (ra rb : Byte) (s : State) : Host.Outcome State Fault Refusal :=
  withRegs ra rb s fun a b => .ok ((s.setFl (compareFlags (s.reg a) (s.reg b))).advance 2)

end Sys2Proof.Machine
end

