-- ==== Sys2Proof/Machine/ControlTransfer.lean ====
section
/-!
DEFINITION. The control-transfer instructions CALL, RET, JMP, the conditional jumps and IRET
(43_control_transfer.md). Each writes `pc` itself on every path (R134).
-/
namespace Sys2Proof.Machine

/-- CALL: the target is read first; a return address above 0xFF stops the run before the push; the return
address is pushed; the scratch cell takes a draw (43_control_transfer.md R136 to R138). -/
def execCall (ra : Byte) (s : State) : Host.Outcome State Fault Refusal :=
  withReg ra s fun a =>
    if s.pc.toNat + 2 > 0xFF then raise s .unmodelled (.returnAddress (s.pc + 2))
    else do
      let t ← push ((s.pc + 2).truncate 8) s
      .ok (t.drawScratch.jumpTo (s.reg a))

/-- RET: the scratch cell takes a draw, then `pc <- Pop()` (43_control_transfer.md R140). -/
def execRet (s : State) : Host.Outcome State Fault Refusal :=
  settle s do
    let (v, s) ← pop s.drawScratch
    .ok (s.jumpTo v)

/-- JMP: `pc <- x[ra]` (43_control_transfer.md R142). -/
def execJmp (ra : Byte) (s : State) : Host.Outcome State Fault Refusal :=
  withReg ra s fun a => .ok (s.jumpTo (s.reg a))

/-- A conditional jump: `pc <- x[ra]` when the condition holds of FL, else `pc <- A + 2`
(43_control_transfer.md R141, 40_control_unit.md R83). -/
def jumpIf (cond : Byte → Bool) (ra : Byte) (s : State) : Host.Outcome State Fault Refusal :=
  withReg ra s fun a => .ok (if cond s.fl then s.jumpTo (s.reg a) else s.advance 1)

/-- JEQ (43_control_transfer.md R143). -/
def execJeq (ra : Byte) (s : State) : Host.Outcome State Fault Refusal := jumpIf condEq ra s

/-- JNE (43_control_transfer.md R144). -/
def execJne (ra : Byte) (s : State) : Host.Outcome State Fault Refusal := jumpIf condNe ra s

/-- JGT (43_control_transfer.md R145). -/
def execJgt (ra : Byte) (s : State) : Host.Outcome State Fault Refusal := jumpIf condGt ra s

/-- JGE (43_control_transfer.md R146). -/
def execJge (ra : Byte) (s : State) : Host.Outcome State Fault Refusal := jumpIf condGe ra s

/-- JLT (43_control_transfer.md R147). -/
def execJlt (ra : Byte) (s : State) : Host.Outcome State Fault Refusal := jumpIf condLt ra s

/-- JLE (43_control_transfer.md R148). -/
def execJle (ra : Byte) (s : State) : Host.Outcome State Fault Refusal := jumpIf condLe ra s

/-- IRET: pop R6 to R0, FL and `pc` (43_control_transfer.md R153). -/
def execIret (s : State) : Host.Outcome State Fault Refusal := settle s (interruptReturn s)

end Sys2Proof.Machine
end

