-- ==== Sys2Proof/Machine/DataTransfer.lean ====
section
/-!
DEFINITION. The data-transfer instructions LDI, LD, ST, PUSH, POP (42_data_transfer.md). None writes FL.
-/
namespace Sys2Proof.Machine

/-- LDI: `x[ra] <- imm` (42_data_transfer.md R125). -/
def execLdi (ra imm : Byte) (s : State) : Host.Outcome State Fault Refusal :=
  withReg ra s fun a => .ok ((s.setReg a imm).advance 2)

/-- LD: `x[ra] <- MemRead(x[rb], 1)` (42_data_transfer.md R126). -/
def execLd (ra rb : Byte) (s : State) : Host.Outcome State Fault Refusal :=
  withRegs ra rb s fun a b => .ok ((s.setReg a (s.load (s.reg b))).advance 2)

/-- ST: `MemWrite(x[rb], 1, x[ra])` (42_data_transfer.md R127). -/
def execSt (ra rb : Byte) (s : State) : Host.Outcome State Fault Refusal :=
  withRegs ra rb s fun a b => .ok ((s.store (s.reg b) (s.reg a)).advance 2)

/-- PUSH: `SPDec()`, then the register as it stands after the decrement is written at SP
(42_data_transfer.md R122, R129, R130). -/
def execPush (ra : Byte) (s : State) : Host.Outcome State Fault Refusal :=
  withReg ra s fun a => do
    let s ← spDec s
    .ok ((s.store (s.reg spReg) (s.reg a)).advance 1)

/-- POP: the byte at SP goes to the register, then `SPInc()` acts on R7 as it then stands
(42_data_transfer.md R123, R131, R132). -/
def execPop (ra : Byte) (s : State) : Host.Outcome State Fault Refusal :=
  withReg ra s fun a => do
    let s ← spInc (s.setReg a (s.load (s.reg spReg)))
    .ok (s.advance 1)

end Sys2Proof.Machine
end

