-- ==== Sys2Proof/Machine/System.lean ====
section
/-!
DEFINITION. The output and system instructions PRN, PRA, NOP, HLT (44_system.md). None writes FL.
-/
namespace Sys2Proof.Machine

/-- PRN: `emit(NUMBER, x[ra])` (44_system.md R158). -/
def execPrn (ra : Byte) (s : State) : Host.Outcome State Fault Refusal :=
  withReg ra s fun a => .ok ((s.emit (.number (s.reg a))).advance 1)

/-- PRA: `emit(CHAR, x[ra])` (44_system.md R159). -/
def execPra (ra : Byte) (s : State) : Host.Outcome State Fault Refusal :=
  withReg ra s fun a => .ok ((s.emit (.char (s.reg a))).advance 1)

/-- NOP: only `pc` advances (44_system.md R160). -/
def execNop (s : State) : Host.Outcome State Fault Refusal := .next (s.advance 0)

/-- HLT: `state <- HALTED; pc <- A + 1` (44_system.md R161, 40_control_unit.md R80). -/
def execHlt (s : State) : Host.Outcome State Fault Refusal :=
  .next ({ s with state := .halted }.advance 0)

end Sys2Proof.Machine
end

