-- ==== Sys2Proof/Syntax.lean ====
section
/-!
DEFINITION. The instructions, one constructor per row of spec/opcode_table.json, in the table's order.
A register operand is held as the WHOLE operand byte, as the instruction carries it (30_encoding.md
R60, R61): a byte above 7 is an operand the REGCHECK phase refuses, not one that cannot be written down.
-/
namespace Sys2Proof

/-- The 33 instructions with their operand bytes (30_encoding.md R59, R60, R62). -/
inductive Instr where
  | nop
  | hlt
  | ret
  | iret
  | push (ra : Byte)
  | pop (ra : Byte)
  | prn (ra : Byte)
  | pra (ra : Byte)
  | call (ra : Byte)
  | jmp (ra : Byte)
  | jeq (ra : Byte)
  | jne (ra : Byte)
  | jgt (ra : Byte)
  | jlt (ra : Byte)
  | jle (ra : Byte)
  | jge (ra : Byte)
  | inc (ra : Byte)
  | dec (ra : Byte)
  | not (ra : Byte)
  | ldi (ra imm : Byte)
  /-- `ra` is dest_reg, `rb` is addr_reg. -/
  | ld (ra rb : Byte)
  /-- `ra` is src_reg (the value), `rb` is addr_reg (90_conflicts.md C4). -/
  | st (ra rb : Byte)
  | add (ra rb : Byte)
  | sub (ra rb : Byte)
  | mul (ra rb : Byte)
  | div (ra rb : Byte)
  | mod (ra rb : Byte)
  | cmp (ra rb : Byte)
  | and (ra rb : Byte)
  | or (ra rb : Byte)
  | xor (ra rb : Byte)
  | shl (ra rb : Byte)
  | shr (ra rb : Byte)
deriving DecidableEq, Repr

end Sys2Proof
end

