-- ==== Sys2Proof/WellFormed.lean ====
section
/-!
DEFINITION. Which instructions are well formed: every register operand byte names one of R0 to R7
(30_encoding.md R61, R64). The LDI immediate has no illegal value. An ill-formed instruction still
decodes and still has a meaning, the OutOfBoundsAccess of 40_control_unit.md R79.
-/
namespace Sys2Proof

/-- The operand bytes that the instruction's format makes register indices, byte 1 first
(40_control_unit.md R79). -/
def Instr.regOperands : Instr → List Byte
  | .nop | .hlt | .ret | .iret => []
  | .push ra | .pop ra | .prn ra | .pra ra | .call ra | .jmp ra | .jeq ra | .jne ra | .jgt ra
  | .jlt ra | .jle ra | .jge ra | .inc ra | .dec ra | .not ra => [ra]
  | .ldi ra _ => [ra]
  | .ld ra rb | .st ra rb | .add ra rb | .sub ra rb | .mul ra rb | .div ra rb | .mod ra rb
  | .cmp ra rb | .and ra rb | .or ra rb | .xor ra rb | .shl ra rb | .shr ra rb => [ra, rb]

/-- A byte that names a register: 0 to 7 (30_encoding.md R61). -/
def isRegIndex (b : Byte) : Bool := decide (b.toNat < 8)

/-- Every register operand names a register. -/
def Instr.wellFormed (i : Instr) : Bool := i.regOperands.all isRegIndex

end Sys2Proof
end

