-- ==== Sys2Proof/Decode.lean ====
section
/-!
DEFINITION. The decoder and the encoder (30_encoding.md). The opcode table is data (92_eei_decisions.md
D1: "A model should keep the table as data so it can be replaced"). Decoding is total: any list of bytes
gives an instruction and the bytes after it, or is rejected by name.
-/
namespace Sys2Proof

/-- The 33 mnemonics (30_encoding.md R59). -/
inductive Mnemonic where
  | nop | hlt | ret | iret | push | pop | prn | pra | call | jmp | jeq
  | jne | jgt | jlt | jle | jge | inc | dec | not | ldi | ld | st
  | add | sub | mul | div | mod | cmp | and | or | xor | shl | shr
deriving DecidableEq, Repr

/-- The opcode byte of each mnemonic (30_encoding.md R59). -/
def Mnemonic.opcode : Mnemonic → Byte
  | .nop => 0x00#8
  | .hlt => 0x01#8
  | .ret => 0x11#8
  | .iret => 0x13#8
  | .push => 0x45#8
  | .pop => 0x46#8
  | .prn => 0x47#8
  | .pra => 0x48#8
  | .call => 0x50#8
  | .jmp => 0x54#8
  | .jeq => 0x55#8
  | .jne => 0x56#8
  | .jgt => 0x57#8
  | .jlt => 0x58#8
  | .jle => 0x59#8
  | .jge => 0x5A#8
  | .inc => 0x65#8
  | .dec => 0x66#8
  | .not => 0x69#8
  | .ldi => 0x82#8
  | .ld => 0x83#8
  | .st => 0x84#8
  | .add => 0xA0#8
  | .sub => 0xA1#8
  | .mul => 0xA2#8
  | .div => 0xA3#8
  | .mod => 0xA4#8
  | .cmp => 0xA7#8
  | .and => 0xA8#8
  | .or => 0xAA#8
  | .xor => 0xAB#8
  | .shl => 0xAC#8
  | .shr => 0xAD#8

/-- The opcode table, in the order of 30_encoding.md R59. -/
def opcodeTable : List Mnemonic :=
  [.nop, .hlt, .ret, .iret, .push, .pop, .prn, .pra, .call, .jmp, .jeq,
   .jne, .jgt, .jlt, .jle, .jge, .inc, .dec, .not, .ldi, .ld, .st,
   .add, .sub, .mul, .div, .mod, .cmp, .and, .or, .xor, .shl, .shr]

/-- The mnemonic whose opcode byte this is; none for the 223 illegal bytes (30_encoding.md R58, R63). -/
def decodeOpcode (op : Byte) : Option Mnemonic :=
  opcodeTable.find? (fun m => m.opcode == op)

/-- The instruction formats (30_encoding.md R60). -/
inductive Format where
  | z | r | rr | ri
deriving DecidableEq, Repr

/-- The format of each mnemonic (30_encoding.md R60). -/
def Mnemonic.format : Mnemonic → Format
  | .nop | .hlt | .ret | .iret => .z
  | .push | .pop | .prn | .pra | .call | .jmp | .jeq | .jne | .jgt | .jlt | .jle | .jge
  | .inc | .dec | .not => .r
  | .ld | .st | .add | .sub | .mul | .div | .mod | .cmp | .and | .or | .xor | .shl
  | .shr => .rr
  | .ldi => .ri

/-- How many operand bytes a format has (30_encoding.md R60). -/
def Format.operandCount : Format → Nat
  | .z => 0
  | .r => 1
  | .rr | .ri => 2

/-- The mnemonics that are dispatched to the ALU: its operation set (41_alu.md R102). -/
def Mnemonic.isAlu : Mnemonic → Bool
  | .add | .sub | .mul | .div | .mod | .inc | .dec | .and | .or | .xor | .not | .shl | .shr | .cmp => true
  | .nop | .hlt | .ret | .iret | .push | .pop | .prn | .pra | .call | .jmp | .jeq | .jne
  | .jgt | .jlt | .jle | .jge | .ldi | .ld | .st => false

/-- The mnemonics that write `pc` themselves: the control-transfer family (43_control_transfer.md R134). -/
def Mnemonic.setsPc : Mnemonic → Bool
  | .call | .ret | .iret | .jmp | .jeq | .jne | .jgt | .jge | .jlt | .jle => true
  | .nop | .hlt | .push | .pop | .prn | .pra | .inc | .dec | .not | .ldi | .ld | .st
  | .add | .sub | .mul | .div | .mod | .cmp | .and | .or | .xor | .shl | .shr => false

/-- What the spec's decoder answers for an opcode byte (30_encoding.md R58). -/
structure OpInfo where
  mnemonic : Mnemonic
  operandCount : Nat
  isAlu : Bool
  setsPc : Bool
deriving DecidableEq, Repr

/-- `decode(opcode: byte) -> (mnemonic, operand_count, is_alu, sets_pc)` (30_encoding.md R58). -/
def opInfo (op : Byte) : Option OpInfo :=
  (decodeOpcode op).map fun m => ⟨m, m.format.operandCount, m.isAlu, m.setsPc⟩

/-- Opcode bits 7-6: the operand count (30_encoding.md R57). -/
def opcountField (op : Byte) : Nat := op.toNat / 64

/-- Opcode bit 5: dispatch to the ALU (30_encoding.md R57). -/
def isAluField (op : Byte) : Bool := op.getLsbD 5

/-- Opcode bit 4: the instruction writes `pc` itself (30_encoding.md R57). -/
def setsPcField (op : Byte) : Bool := op.getLsbD 4

/-- The instruction a mnemonic and its operand bytes make (30_encoding.md R60, R62). A format that has
no such operand does not read it. -/
def Mnemonic.build (ra rb : Byte) : Mnemonic → Instr
  | .nop => .nop
  | .hlt => .hlt
  | .ret => .ret
  | .iret => .iret
  | .push => .push ra
  | .pop => .pop ra
  | .prn => .prn ra
  | .pra => .pra ra
  | .call => .call ra
  | .jmp => .jmp ra
  | .jeq => .jeq ra
  | .jne => .jne ra
  | .jgt => .jgt ra
  | .jlt => .jlt ra
  | .jle => .jle ra
  | .jge => .jge ra
  | .inc => .inc ra
  | .dec => .dec ra
  | .not => .not ra
  | .ldi => .ldi ra rb
  | .ld => .ld ra rb
  | .st => .st ra rb
  | .add => .add ra rb
  | .sub => .sub ra rb
  | .mul => .mul ra rb
  | .div => .div ra rb
  | .mod => .mod ra rb
  | .cmp => .cmp ra rb
  | .and => .and ra rb
  | .or => .or ra rb
  | .xor => .xor ra rb
  | .shl => .shl ra rb
  | .shr => .shr ra rb

/-- The mnemonic of an instruction. -/
def Instr.mnemonic : Instr → Mnemonic
  | .nop => .nop
  | .hlt => .hlt
  | .ret => .ret
  | .iret => .iret
  | .push _ => .push
  | .pop _ => .pop
  | .prn _ => .prn
  | .pra _ => .pra
  | .call _ => .call
  | .jmp _ => .jmp
  | .jeq _ => .jeq
  | .jne _ => .jne
  | .jgt _ => .jgt
  | .jlt _ => .jlt
  | .jle _ => .jle
  | .jge _ => .jge
  | .inc _ => .inc
  | .dec _ => .dec
  | .not _ => .not
  | .ldi _ _ => .ldi
  | .ld _ _ => .ld
  | .st _ _ => .st
  | .add _ _ => .add
  | .sub _ _ => .sub
  | .mul _ _ => .mul
  | .div _ _ => .div
  | .mod _ _ => .mod
  | .cmp _ _ => .cmp
  | .and _ _ => .and
  | .or _ _ => .or
  | .xor _ _ => .xor
  | .shl _ _ => .shl
  | .shr _ _ => .shr

/-- The operand bytes of an instruction, byte 1 first (30_encoding.md R60). -/
def Instr.operandBytes : Instr → List Byte
  | .nop | .hlt | .ret | .iret => []
  | .push ra | .pop ra | .prn ra | .pra ra | .call ra | .jmp ra | .jeq ra | .jne ra | .jgt ra
  | .jlt ra | .jle ra | .jge ra | .inc ra | .dec ra | .not ra => [ra]
  | .ldi ra imm => [ra, imm]
  | .ld ra rb | .st ra rb | .add ra rb | .sub ra rb | .mul ra rb | .div ra rb | .mod ra rb
  | .cmp ra rb | .and ra rb | .or ra rb | .xor ra rb | .shl ra rb | .shr ra rb => [ra, rb]

/-- The length in bytes, told from the opcode (30_encoding.md R66). -/
def Instr.length (i : Instr) : Nat := i.mnemonic.format.operandCount + 1

/-- Why a list of bytes is no instruction. -/
inductive DecodeError where
  /-- There is no opcode byte. -/
  | noOpcode
  /-- The opcode byte is not in the table (30_encoding.md R63). -/
  | unknownOpcode (op : Byte)
  /-- Operand byte `k` (1 or 2) is missing. -/
  | missingOperand (k : Nat)
deriving DecidableEq, Repr

/-- Operand assembly (30_encoding.md R60, R61): the operand bytes follow the opcode in order. -/
def decodeOperands (m : Mnemonic) (rest : List Byte) : Except DecodeError (Instr × List Byte) :=
  match m.format.operandCount, rest with
  | 0, rest => .ok (m.build 0 0, rest)
  | 1, b1 :: rest => .ok (m.build b1 0, rest)
  | _, b1 :: b2 :: rest => .ok (m.build b1 b2, rest)
  | _, [] => .error (.missingOperand 1)
  | _, [_] => .error (.missingOperand 2)

/-- Decode the first instruction of a list of bytes and give the bytes after it. The opcode is looked up
before any operand byte is needed (30_encoding.md R63, R66). -/
def decode : List Byte → Except DecodeError (Instr × List Byte)
  | [] => .error .noOpcode
  | op :: rest =>
    match decodeOpcode op with
    | none => .error (.unknownOpcode op)
    | some m => decodeOperands m rest

/-- The bytes of an instruction, opcode first (30_encoding.md R60). -/
def encode (i : Instr) : List Byte := i.mnemonic.opcode :: i.operandBytes

/-- The three bytes at the lowest addresses of an instruction numbered as spec/opcode_table.json numbers
bits: bit 0 is the least significant bit of the opcode byte, bits 15-8 are byte 1, bits 23-16 byte 2.
Bits at `nbits` and above are 0. -/
def tableWordBytes (nbits w : Nat) : List Byte :=
  let w := w % 2 ^ nbits
  [BitVec.ofNat 8 w, BitVec.ofNat 8 (w / 256), BitVec.ofNat 8 (w / 65536)]

/-- The instruction the decoder reads from a table word; none where it refuses. -/
def decodeTableWord (nbits w : Nat) : Option Instr :=
  match decode (tableWordBytes nbits w) with
  | .ok (i, _) => some i
  | .error _ => none

end Sys2Proof
end

