-- ==== Sys2Proof/Machine/Fetch.lean ====
section
/-!
DEFINITION. The FETCH, DECODE and OPERANDS phases (40_control_unit.md R76 to R78), the host's load of a
program image (70_reset_and_hazards.md R198), and what placing one instruction for the next cycle takes.
-/
namespace Sys2Proof.Machine

/-- The bytes from address `a` on, at most `n`, that lie within memory. -/
def window (s : State) (a : Nat) : Nat → List Byte
  | 0 => []
  | n + 1 => if a > 0xFF then [] else s.mem.read a :: window s (a + 1) n

/-- FETCH, DECODE, OPERANDS: the instruction at `pc`. The opcode byte comes first, then the table, then the
operand bytes; the first that fails is the fault (40_control_unit.md R75 to R78, 60_exceptions.md R185).
A read has no side effect (20_memory.md R44), so looking at up to three bytes reads no more than the
phases do. -/
def fetch (s : State) : Except FaultRecord Instr :=
  match decode (window s s.pc.toNat 3) with
  | .ok (i, _) => .ok i
  | .error .noOpcode => raise s .outOfBoundsAccess (.fetchAddress s.pc)
  | .error (.unknownOpcode op) => raise s .unknownOpcode (.opcode op)
  | .error (.missingOperand k) => raise s .outOfBoundsAccess (.fetchAddress (s.pc + BitVec.ofNat 9 k))

/-- Write bytes at rising addresses from `a`; a byte past 0xFF is not written. -/
def placeBytes (m : Memory) (a : Nat) : List Byte → Memory
  | [] => m
  | b :: bs => if a > 0xFF then m else placeBytes (m.write a b) (a + 1) bs

/-- The host's load, before the run: bytes b0 to b(N-1) go to addresses 0 to N-1. An image longer than 256
bytes is the host's error and never reaches the block (70_reset_and_hazards.md R198). -/
def State.loadImage (image : List Byte) (s : State) : Option State :=
  if image.length ≤ 256 then some { s with mem := placeBytes s.mem 0 image } else none

/-- The state in which the next cycle fetches and runs the instruction of these bytes at `pc`: the engine
RUNNING, the bytes in memory, no tick at the coming check and no enabled line pending, since either could
send the fetch to a vector (assumption log 8). -/
def State.readyToFetch (s : State) (bytes : List Byte) : State :=
  { s.setReg isReg (s.reg isReg &&& ~~~(s.reg imReg)) with
    mem := placeBytes s.mem s.pc.toNat bytes
    state := .running
    fault := none
    tick := false }

end Sys2Proof.Machine
end

