-- ==== Sys2Proof/Machine/Step.lean ====
section
/-!
DEFINITION. One step of the engine is one cycle: the interrupt check and at most one instruction
(00_scope.md R15, 40_control_unit.md R70).
-/
namespace Sys2Proof.Machine

/-- The cycle (40_control_unit.md R70). In HALTED and FAULTED no cycle runs (10_state.md R29). An error in
INT_CHECK or in the fetch stops the cycle in FAULTED; otherwise the instruction fetched at the `pc` the
check left is executed. -/
def step (s : State) : Host.Outcome State Fault Refusal :=
  match s.state with
  | .halted => .fault .halted
  | .faulted => .fault .faulted
  | .running =>
    match intCheck s with
    | .error r => settle s (.error r)
    | .ok t =>
      match fetch t with
      | .error r => settle t (.error r)
      | .ok i => exec i t

/-- `s` with the instruction of a table word placed where the next cycle fetches (assumption log 8). -/
def State.withFetchWord (s : State) (nbits w : Nat) : State := s.readyToFetch (tableWordBytes nbits w)

end Sys2Proof.Machine
end

