-- ==== Sys2Proof/Safety.lean ====
section
/-!
DEFINITION. What claims about the engine are stated in: the frame of an instruction, a fatal error, the
invariant of a run, the end-of-run observation (70_reset_and_hazards.md R202) and the open parameter
TIMER_FAIR (00_scope.md R7).
-/
namespace Sys2Proof.Machine

/-- What an instruction may change, beside `pc` and the count of draws. -/
structure Touched where
  /-- The registers it may write. -/
  regs : List Reg := []
  /-- The memory addresses it may store to. -/
  mem : List Nat := []
  /-- Whether it may write FL. -/
  fl : Bool := false
  /-- Whether it may write the run state. -/
  state : Bool := false
  /-- Whether it may append to the console. -/
  console : Bool := false
deriving DecidableEq, Repr

/-- The frame: everything but what is touched, `pc` and the count of draws is in `t` as it was in `s`. -/
structure Frame (x : Touched) (s t : State) : Prop where
  regs : ∀ r, r ∉ x.regs → t.reg r = s.reg r
  mem : ∀ a, a ≤ 0xFF → a ∉ x.mem → t.mem.read a = s.mem.read a
  fl : x.fl = false → t.fl = s.fl
  state : x.state = false → t.state = s.state
  console : x.console = false → t.console = s.console
  fault : t.fault = s.fault
  tick : t.tick = s.tick

/-- A register named by its operand byte (30_encoding.md R61). -/
def regByte (r : Reg) : Byte := BitVec.ofNat 8 r.val

/-- Instruction `i` completes in `s`: register `d` takes the value `v`, `pc` moves past the instruction, and
nothing else changes. -/
def WritesReg (i : Instr) (s : State) (d : Reg) (v : Nat) : Prop :=
  ∃ t, exec i s = .next t ∧ (t.reg d).toNat = v ∧ t.pc = s.pc + BitVec.ofNat 9 i.length ∧
    Frame { regs := [d] } s t

/-- The bytes of `i` lie in memory at `pc`, all of them within the 256 cells. -/
def InstrAt (i : Instr) (s : State) : Prop :=
  s.pc.toNat + i.length ≤ 256 ∧
    ∀ k, k < i.length → s.mem.read (s.pc.toNat + k) = (encode i).getD k 0x00#8

/-- The outcome is FAULTED with this fault record, and the console events emitted before stand: all that
40_control_unit.md R85 defines of a fatal error. -/
def Faults (o : Host.Outcome State Fault Refusal) (r : FaultRecord) (console : List ConsoleEvent) : Prop :=
  ∃ t, o = .next t ∧ t.state = .faulted ∧ t.fault = some r ∧ t.console = console

/-- The invariant of every run: memory is in canonical form, the fault record is there exactly in FAULTED
(10_state.md R29, R30), and outside FAULTED `pc` is at most 0x102 (10_state.md R23). -/
structure Inv (s : State) : Prop where
  mem : s.mem.wf = true
  fault : s.fault.isSome = true ↔ s.state = .faulted
  pc : s.state ≠ .faulted → s.pc.toNat ≤ 0x102

/-- What the host observes at the end of a run (70_reset_and_hazards.md R202). -/
inductive Observation where
  | halted (regs : Vector Byte 8) (fl : Byte) (pc : PcWord) (mem : Memory) (console : List ConsoleEvent)
  | faulted (record : FaultRecord) (console : List ConsoleEvent)
deriving DecidableEq, Repr

/-- The end-of-run observation; none while RUNNING. After a fault only the record and the console are
observed (70_reset_and_hazards.md R202). -/
def State.observe (s : State) : Option Observation :=
  match s.state, s.fault with
  | .running, _ => none
  | .halted, _ => some (.halted s.regs s.fl s.pc s.mem s.console)
  | .faulted, some r => some (.faulted r s.console)
  | .faulted, none => none

/-- The state after `n` cycles, if the run has not ended before. -/
def runsTo (s : State) (n : Nat) (t : State) : Prop := Sys2Proof.core.run n s = .next t

/-- `TIMER_FAIR` for the run from `s`: if it is infinite, `tick` is 1 at infinitely many checks
(00_scope.md R7, 70_reset_and_hazards.md R207). An open parameter: a claim that needs it assumes it. -/
def TimerFair (s : State) : Prop :=
  (∀ n, ∃ t, runsTo s n t) → ∀ n, ∃ m, n ≤ m ∧ ∃ t, runsTo s m t ∧ t.tick = true

end Sys2Proof.Machine
end

