-- ==== Sys2Proof/Certificates/Slice0/Obligations.lean ====
section
/-!
DEFINITION. The statements about the engine, for the provers. Each docstring names the rule of spec/ it
formalises. `regByte r` is the operand byte that names register `r`; the operand bytes that name none have
a statement of their own (`RegisterIndexAboveSevenFaults`).
-/
open Sys2Proof Sys2Proof.Machine

/-! ### Encoding -/

/-- Decoding the bytes of any instruction gives it back, with the bytes after it, whatever its operand bytes
(30_encoding.md sections 2, 3). The opcode bytes are the spec's decision D1 and D2. -/
def Obligations.DecodeEncodeRoundTrip : Prop :=
  ∀ (i : Instr) (rest : List Byte), decode (encode i ++ rest) = .ok (i, rest)

/-- Every list of bytes that decodes begins with the encoding of what it decodes to (30_encoding.md
sections 2, 3): one encoding an instruction. -/
def Obligations.DecodeAcceptsOnlyEncodings : Prop :=
  ∀ (bs : List Byte) (i : Instr) (rest : List Byte), decode bs = .ok (i, rest) → bs = encode i ++ rest

/-- What the decoder says of an opcode byte are its bit fields (30_encoding.md section 1, a consequence the
spec derives), and no byte with bits 7-6 both set is an opcode (30_encoding.md section 4). -/
def Obligations.OpcodeBitsGiveDispatch : Prop :=
  ∀ op : Byte,
    (∀ info, opInfo op = some info →
      info.mnemonic.opcode = op ∧ info.operandCount = opcountField op ∧ info.isAlu = isAluField op ∧
        info.setsPc = setsPcField op) ∧
    (opcountField op = 3 → opInfo op = none)

/-- A few words written out from the encoding table decode to what they stand for (30_encoding.md sections
2, 3). -/
def Obligations.SampleWordsDecode : Prop :=
  decode [0x13#8] = .ok (.iret, []) ∧ decode [0x5A#8, 0x03#8] = .ok (.jge 3#8, []) ∧
    decode [0x69#8, 0x02#8, 0x47#8] = .ok (.not 2#8, [0x47#8]) ∧
    decode [0x82#8, 0x00#8, 0xFF#8] = .ok (.ldi 0#8 0xFF#8, []) ∧
    decode [0x84#8, 0x01#8, 0x02#8] = .ok (.st 1#8 2#8, []) ∧
    decode [0xA7#8, 0x04#8, 0x05#8] = .ok (.cmp 4#8 5#8, [])

/-! ### The cycle -/

/-- A cycle in RUNNING whose interrupt check leaves `t` runs the instruction whose bytes lie at `t.pc`, well
formed or not; the check is all that a cycle adds around `exec` (40_control_unit.md section 1). -/
def Obligations.StepRunsDecodedInstruction : Prop :=
  ∀ (s t : State) (i : Instr), s.state = .running → intCheck s = .ok t → InstrAt i t → step s = exec i t

/-- In RUNNING a cycle always ends in a next state. In HALTED and FAULTED no cycle runs; that `step` says so
by a stop of the model is its choice (assumption log 5; "HALTED and FAULTED are terminal: no cycle runs in
them"). -/
def Obligations.CyclesRunExactlyInRunning : Prop :=
  ∀ s : State, (s.state = .running → ∃ t, step s = .next t) ∧
    (s.state = .halted → step s = .fault .halted) ∧ (s.state = .faulted → step s = .fault .faulted)

/-- Every instruction, with any operand bytes, answers a next state in every state: a fatal error is a state
too (assumption log 4). -/
def Obligations.ExecAlwaysAnswersState : Prop :=
  ∀ (i : Instr) (s : State), ∃ t, exec i s = .next t

/-- 60_exceptions.md R164: an opcode byte outside the table raises UnknownOpcode (code 1), whatever bytes follow
or whether any do; the record holds the instruction address and the byte. -/
def Obligations.UnknownOpcodeFaults : Prop :=
  FaultKind.unknownOpcode.code = 1 ∧ ∀ (s t : State), s.state = .running → intCheck s = .ok t → t.pc.toNat ≤ 0xFF →
    (∀ m : Mnemonic, m.opcode ≠ t.mem.read t.pc.toNat) →
    Faults (step s) ⟨.unknownOpcode, t.pc, .opcode (t.mem.read t.pc.toNat)⟩ s.console

/-- A fetch above 0xFF raises OutOfBoundsAccess with the address: of the opcode when `pc` is above 0xFF, of
the first operand byte at 0x100 otherwise (40_control_unit.md section 2; 92_eei_decisions.md D7). -/
def Obligations.FetchAboveMemoryFaults : Prop :=
  ∀ (s t : State), s.state = .running → intCheck s = .ok t →
    (0xFF < t.pc.toNat → Faults (step s) ⟨.outOfBoundsAccess, t.pc, .fetchAddress t.pc⟩ s.console) ∧
    ∀ m : Mnemonic, t.pc.toNat ≤ 0xFF → m.opcode = t.mem.read t.pc.toNat →
      0xFF < t.pc.toNat + m.format.operandCount →
      Faults (step s) ⟨.outOfBoundsAccess, t.pc, .fetchAddress 0x100#9⟩ s.console

/-- The first register operand byte above 7 raises OutOfBoundsAccess with that byte, before any effect and
before any other fault of the instruction (40_control_unit.md section 2; 92_eei_decisions.md D5). -/
def Obligations.RegisterIndexAboveSevenFaults : Prop :=
  ∀ (i : Instr) (s : State) (b : Byte), i.regOperands.find? (fun c => decide (7 < c.toNat)) = some b →
    Faults (exec i s) ⟨.outOfBoundsAccess, s.pc, .registerIndex b⟩ s.console

/-- The invariant of a run is kept by every cycle, from every state that meets it: memory keeps its canonical
form, the fault record is there exactly in FAULTED, `pc` stays at most 0x102 (10_state.md sections 2, 4). -/
def Obligations.StepKeepsInv : Prop :=
  ∀ s t : State, Inv s → step s = .next t → Inv t

/-- The invariant holds after reset. -/
def Obligations.ResetMeetsInv : Prop := Inv State.reset

/-- The state after reset (10_state.md section 7): SP 0xF4, every other register, FL and `pc` 0, RUNNING, no
fault, an empty console, and every cell 0x00 but 0xF7, of which nothing is said. The zeros are the spec's
decision D9. -/
def Obligations.ResetValues : Prop :=
  State.reset.reg 7 = 0xF4#8 ∧ (∀ r : Reg, r ≠ 7 → State.reset.reg r = 0x00#8) ∧
    State.reset.fl = 0x00#8 ∧ State.reset.pc = 0#9 ∧ State.reset.state = .running ∧
    State.reset.fault = none ∧ State.reset.console = [] ∧
    ∀ a, a ≤ 0xFF → a ≠ 0xF7 → State.reset.mem.read a = 0x00#8

/-- Loading an image of at most 256 bytes puts its bytes at addresses 0 on, over any memory in canonical form,
and changes nothing else (70_reset_and_hazards.md section 1; 92_eei_decisions.md D20). -/
def Obligations.LoadPlacesImage : Prop :=
  ∀ (image : List Byte) (s : State), s.mem.wf = true → image.length ≤ 256 →
    ∃ t, s.loadImage image = some t ∧
      (∀ a, a ≤ 0xFF → t.mem.read a = image.getD a (s.mem.read a)) ∧ t = { s with mem := t.mem }

/-- Only CMP and IRET change FL: a cycle that ends without a fatal error and changes FL ran one of them
(10_state.md section 3; 41_alu.md section 1). -/
def Obligations.OnlyCmpAndIretChangeFlags : Prop :=
  ∀ s t : State, step s = .next t → t.state ≠ .faulted → t.fl ≠ s.fl →
    ∃ u i, intCheck s = .ok u ∧ fetch u = .ok i ∧ (i.mnemonic = .cmp ∨ i.mnemonic = .iret)

/-- HALTED is entered only by HLT (40_control_unit.md section 1). -/
def Obligations.OnlyHltHalts : Prop :=
  ∀ s t : State, step s = .next t → t.state = .halted → ∃ u, intCheck s = .ok u ∧ fetch u = .ok .hlt

/-- The console is append-only: a cycle appends at most one event, and only PRN and PRA append (10_state.md
section 5; 44_system.md section 1). -/
def Obligations.ConsoleIsAppendOnly : Prop :=
  ∀ s t : State, step s = .next t → t.console = s.console ∨
    ∃ u i e, intCheck s = .ok u ∧ fetch u = .ok i ∧ (i.mnemonic = .prn ∨ i.mnemonic = .pra) ∧
      t.console = s.console ++ [e]

/-- An instruction whose sets-PC bit is 0 leaves `pc` advanced by its length when it completes
(40_control_unit.md section 2, the law the spec derives). -/
def Obligations.PcAdvancesByLength : Prop :=
  ∀ (i : Instr) (s t : State), i.mnemonic.setsPc = false → exec i s = .next t → t.state ≠ .faulted →
    t.pc = s.pc + BitVec.ofNat 9 i.length

/-- A cycle that ends FAULTED leaves a fault record, and the host observes that record and the console as it was
before the cycle, whatever the undetermined rest holds (40_control_unit.md section 3; 70_reset_and_hazards.md
section 2; 92_eei_decisions.md D14). That the record is never one of UnsupportedAluOp is deduced: assumption log
27, from 30_encoding.md section 4 (R65, which the spec derives) and 60_exceptions.md section 1 (R165). -/
def Obligations.FatalErrorIsObserved : Prop :=
  ∀ s t : State, s.state = .running → step s = .next t → t.state = .faulted →
    ∃ r, t.observe = some (.faulted r s.console) ∧ r.kind ≠ .unsupportedAluOp

/-! ### ALU -/

/-- 41_alu.md R93: addition and subtraction wrap, and nothing but the destination and `pc` changes. -/
def Obligations.AddSubIncDecWrap : Prop :=
  ∀ (d r : Reg) (s : State),
    WritesReg (.add (regByte d) (regByte r)) s d (((s.reg d).toNat + (s.reg r).toNat) % 256) ∧
    WritesReg (.sub (regByte d) (regByte r)) s d (((s.reg d).toNat + 256 - (s.reg r).toNat) % 256) ∧
    WritesReg (.inc (regByte d)) s d (((s.reg d).toNat + 1) % 256) ∧
    WritesReg (.dec (regByte d)) s d (((s.reg d).toNat + 255) % 256)

/-- 41_alu.md R94: MUL keeps the low 8 bits of the exact product. -/
def Obligations.MulKeepsLowByte : Prop :=
  ∀ (d r : Reg) (s : State),
    WritesReg (.mul (regByte d) (regByte r)) s d ((s.reg d).toNat * (s.reg r).toNat % 256)

/-- DIV and MOD by a nonzero register give the quotient and the remainder of the unsigned integer division:
the one `q` and `m` with `a = q * b + m` and `m < b` (41_alu.md section 1; 92_eei_decisions.md D4). -/
def Obligations.DivModGiveQuotientAndRemainder : Prop :=
  ∀ (d r : Reg) (s : State), s.reg r ≠ 0x00#8 →
    ∃ q m, (s.reg d).toNat = q * (s.reg r).toNat + m ∧ m < (s.reg r).toNat ∧
      WritesReg (.div (regByte d) (regByte r)) s d q ∧ WritesReg (.mod (regByte d) (regByte r)) s d m

/-- 60_exceptions.md R166: DIV and MOD by a register that holds 0 raise DivisionByZero (code 3); the record holds
the instruction address and the opcode byte, and nothing is output. -/
def Obligations.DivisionByZeroFaults : Prop :=
  FaultKind.divisionByZero.code = 3 ∧ ∀ (d r : Reg) (s : State), s.reg r = 0x00#8 →
    Faults (exec (.div (regByte d) (regByte r)) s) ⟨.divisionByZero, s.pc, .opcode 0xA3#8⟩ s.console ∧
    Faults (exec (.mod (regByte d) (regByte r)) s) ⟨.divisionByZero, s.pc, .opcode 0xA4#8⟩ s.console

/-- 41_alu.md R98: the bitwise operations act on the 8 bits independently, and NOT gives `255 - a`. -/
def Obligations.BitwiseResults : Prop :=
  ∀ (d r : Reg) (s : State), ∃ va vo vx : Byte,
    WritesReg (.and (regByte d) (regByte r)) s d va.toNat ∧
    WritesReg (.or (regByte d) (regByte r)) s d vo.toNat ∧
    WritesReg (.xor (regByte d) (regByte r)) s d vx.toNat ∧
    (∀ k, k < 8 → va.getLsbD k = ((s.reg d).getLsbD k && (s.reg r).getLsbD k) ∧
      vo.getLsbD k = ((s.reg d).getLsbD k || (s.reg r).getLsbD k) ∧
      vx.getLsbD k = ((s.reg d).getLsbD k != (s.reg r).getLsbD k)) ∧
    WritesReg (.not (regByte d)) s d (255 - (s.reg d).toNat)

/-- The shifts take the whole count: `a * 2^b` modulo 256 and `a / 2^b`, both 0 from a count of 8 on
(41_alu.md section 1, a consequence the spec derives). -/
def Obligations.ShiftsUseWholeCount : Prop :=
  ∀ (d r : Reg) (s : State),
    WritesReg (.shl (regByte d) (regByte r)) s d
      (if 8 ≤ (s.reg r).toNat then 0 else (s.reg d).toNat * 2 ^ (s.reg r).toNat % 256) ∧
    WritesReg (.shr (regByte d) (regByte r)) s d
      (if 8 ≤ (s.reg r).toNat then 0 else (s.reg d).toNat / 2 ^ (s.reg r).toNat)

/-- 41_alu.md R99: CMP sets exactly one of E, L, G by the unsigned order and mutates no register. -/
def Obligations.CmpSetsExactlyOneFlag : Prop :=
  ∀ (a b : Reg) (s : State), ∃ t, exec (.cmp (regByte a) (regByte b)) s = .next t ∧
    t.fl.getLsbD 0 = decide ((s.reg a).toNat = (s.reg b).toNat) ∧
    t.fl.getLsbD 1 = decide ((s.reg b).toNat < (s.reg a).toNat) ∧
    t.fl.getLsbD 2 = decide ((s.reg a).toNat < (s.reg b).toNat) ∧
    t.pc = s.pc + 3 ∧ Frame { fl := true } s t

/-- After CMP of `a` with `b` each conditional jump is taken exactly when its name says so of the unsigned
values (41_alu.md section 1; 43_control_transfer.md section 1), and CMP leaves bits 7-3 of FL clear
(92_eei_decisions.md D18). -/
def Obligations.CompareThenJump : Prop :=
  ∀ (a b j : Reg) (s t : State), exec (.cmp (regByte a) (regByte b)) s = .next t →
    let x := (s.reg a).toNat
    let y := (s.reg b).toNat
    let goes (i : Instr) (c : Prop) : Prop :=
      (c → exec i t = .next { t with pc := (s.reg j).zeroExtend 9 }) ∧
        (¬ c → exec i t = .next { t with pc := t.pc + 2 })
    t.fl.toNat < 8 ∧ goes (.jeq (regByte j)) (x = y) ∧ goes (.jne (regByte j)) (x ≠ y) ∧
      goes (.jgt (regByte j)) (y < x) ∧ goes (.jge (regByte j)) (y ≤ x) ∧
      goes (.jlt (regByte j)) (x < y) ∧ goes (.jle (regByte j)) (x ≤ y)

/-! ### Data transfer -/

/-- LDI writes the immediate, LD the byte at the address in the second register, unchanged; nothing else
changes (42_data_transfer.md sections 1, 2). -/
def Obligations.LoadsWriteDestination : Prop :=
  ∀ (d r : Reg) (imm : Byte) (s : State),
    WritesReg (.ldi (regByte d) imm) s d imm.toNat ∧
    WritesReg (.ld (regByte d) (regByte r)) s d (s.mem.read (s.reg r).toNat).toNat

/-- ST writes the first register's value at the address in the second; no register and no other byte changes
(42_data_transfer.md section 2; 90_conflicts.md C4). -/
def Obligations.StoreWritesCell : Prop :=
  ∀ (v a : Reg) (s : State), s.mem.wf = true →
    ∃ t, exec (.st (regByte v) (regByte a)) s = .next t ∧ t.mem.read (s.reg a).toNat = s.reg v ∧
      t.pc = s.pc + 3 ∧ Frame { mem := [(s.reg a).toNat] } s t

/-- PUSH with SP above 0: SP falls by one and the byte at the new SP is the register's value, or, for R7, the
decremented SP (42_data_transfer.md sections 1, 2, which the spec derives in part). -/
def Obligations.PushWritesBelowSp : Prop :=
  ∀ (d : Reg) (s : State) (p : Nat), s.mem.wf = true → (s.reg 7).toNat = p + 1 →
    ∃ t, exec (.push (regByte d)) s = .next t ∧ (t.reg 7).toNat = p ∧
      (t.mem.read p).toNat = (if d = 7 then p else (s.reg d).toNat) ∧ t.pc = s.pc + 2 ∧
      Frame { regs := [7], mem := [p] } s t

/-- POP: the byte at SP goes to the register and SP rises by one; `POP R7` leaves that byte plus one in R7. No
byte of memory changes (42_data_transfer.md sections 1, 2, which the spec derives in part). -/
def Obligations.PopReadsAtSp : Prop :=
  ∀ (d : Reg) (s : State),
    let v := s.mem.read (s.reg 7).toNat
    (if d = 7 then v else s.reg 7) ≠ 0xFF#8 →
    ∃ t, exec (.pop (regByte d)) s = .next t ∧ (d ≠ 7 → t.reg d = v) ∧
      (t.reg 7).toNat = (if d = 7 then v else s.reg 7).toNat + 1 ∧ t.pc = s.pc + 2 ∧
      Frame { regs := [d, 7] } s t

/-- The stack checks: SP 0x00 at a decrement and SP 0xFF at an increment raise OutOfBoundsAccess
(20_memory.md section 4; 92_eei_decisions.md D6), in PUSH, CALL, POP and RET. -/
def Obligations.StackEdgesFault : Prop :=
  ∀ (d : Reg) (s : State),
    let ovf : FaultRecord := ⟨.outOfBoundsAccess, s.pc, .stackOverflow 0x00#8⟩
    let unf : FaultRecord := ⟨.outOfBoundsAccess, s.pc, .stackUnderflow 0xFF#8⟩
    (s.reg 7 = 0x00#8 → Faults (exec (.push (regByte d)) s) ovf s.console ∧
      (s.pc.toNat + 2 ≤ 0xFF → Faults (exec (.call (regByte d)) s) ovf s.console)) ∧
    (s.reg 7 = 0xFF#8 → Faults (exec .ret s) unf s.console ∧
      (d ≠ 7 → Faults (exec (.pop (regByte d)) s) unf s.console)) ∧
    (s.mem.read (s.reg 7).toNat = 0xFF#8 → Faults (exec (.pop (regByte 7)) s) unf s.console)

/-- PUSH followed by POP of the same register, R7 included, restores every register; only the cell at the old
top of the stack changes (42_data_transfer.md section 2, the law the spec derives). -/
def Obligations.PushPopRoundTrip : Prop :=
  ∀ (d : Reg) (s : State) (p : Nat), s.mem.wf = true → (s.reg 7).toNat = p + 1 →
    ∃ t u, exec (.push (regByte d)) s = .next t ∧ exec (.pop (regByte d)) t = .next u ∧
      (∀ r, u.reg r = s.reg r) ∧ u.pc = s.pc + 4 ∧ Frame { mem := [p] } s u

/-- A store is seen by the next fetch, with no fence: after ST of the HLT byte into the cell `pc` then names,
a cycle with no tick and every line masked halts (20_memory.md section 6). -/
def Obligations.StoredHltIsFetchedNext : Prop :=
  ∀ (v a : Reg) (s : State), s.mem.wf = true → s.state = .running → s.tick = false →
    s.reg 5 = 0x00#8 → s.reg v = 0x01#8 → (s.reg a).toNat = s.pc.toNat + 3 →
    ∃ t u, exec (.st (regByte v) (regByte a)) s = .next t ∧ step t = .next u ∧ u.state = .halted ∧
      u.pc = s.pc + 4

/-! ### Control transfer -/

/-- 43_control_transfer.md R141: JMP always jumps, and each conditional jump jumps exactly when the FL bits of
its condition are set, whatever the others hold; a fall-through writes `A + 2`. Nothing but `pc` changes. -/
def Obligations.JumpsTestTheirFlagBits : Prop :=
  ∀ (d : Reg) (s : State),
    let e := s.fl.getLsbD 0
    let g := s.fl.getLsbD 1
    let l := s.fl.getLsbD 2
    let goes (c : Bool) : State := { s with pc := if c then (s.reg d).zeroExtend 9 else s.pc + 2 }
    exec (.jmp (regByte d)) s = .next (goes true) ∧ exec (.jeq (regByte d)) s = .next (goes e) ∧
    exec (.jne (regByte d)) s = .next (goes (!e)) ∧ exec (.jgt (regByte d)) s = .next (goes g) ∧
    exec (.jge (regByte d)) s = .next (goes (e || g)) ∧ exec (.jlt (regByte d)) s = .next (goes l) ∧
    exec (.jle (regByte d)) s = .next (goes (e || l))

/-- CALL goes to the register's value as it was before anything is written, pushes `A + 2`, and leaves every
register but SP as it was, R4 among them. The scratch cell is not determined, nor is the return address when
it lies there (43_control_transfer.md section 1; 92_eei_decisions.md D11, D12). -/
def Obligations.CallPushesReturnAddress : Prop :=
  ∀ (d : Reg) (s : State) (p : Nat), s.mem.wf = true → s.pc.toNat + 2 ≤ 0xFF → (s.reg 7).toNat = p + 1 →
    ∃ t, exec (.call (regByte d)) s = .next t ∧ t.pc.toNat = (s.reg d).toNat ∧ (t.reg 7).toNat = p ∧
      (p ≠ 0xF5 → (t.mem.read p).toNat = s.pc.toNat + 2) ∧ Frame { regs := [7], mem := [p, 0xF5] } s t

/-- CALL at 0xFE stops with Unmodelled, return address 0x100, before the stack is looked at
(43_control_transfer.md section 1; 92_eei_decisions.md D8). -/
def Obligations.CallAtLastAddressIsUnmodelled : Prop :=
  ∀ (d : Reg) (s : State), s.pc = 0xFE#9 →
    Faults (exec (.call (regByte d)) s) ⟨.unmodelled, s.pc, .returnAddress 0x100#9⟩ s.console

/-- RET goes to the byte at SP and raises SP by one; the scratch cell is not determined, nor the target when
it is popped from there (43_control_transfer.md section 1; 92_eei_decisions.md D11). -/
def Obligations.RetPopsReturnAddress : Prop :=
  ∀ s : State, s.mem.wf = true → s.reg 7 ≠ 0xFF#8 →
    ∃ t, exec .ret s = .next t ∧ (t.reg 7).toNat = (s.reg 7).toNat + 1 ∧ t.pc.toNat ≤ 0xFF ∧
      (s.reg 7 ≠ 0xF5#8 → t.pc.toNat = (s.mem.read (s.reg 7).toNat).toNat) ∧
      Frame { regs := [7], mem := [0xF5] } s t

/-- CALL followed by RET resumes after the CALL with every register as before, R4 among them; only the stack
cell and the scratch cell change. SP 0xF6 at the CALL is excepted, as the spec does (43_control_transfer.md
section 1, the law the spec derives). -/
def Obligations.CallReturnResumes : Prop :=
  ∀ (d : Reg) (s : State) (p : Nat), s.mem.wf = true → s.pc.toNat + 2 ≤ 0xFF →
    (s.reg 7).toNat = p + 1 → p ≠ 0xF5 →
    ∃ t u, exec (.call (regByte d)) s = .next t ∧ exec .ret t = .next u ∧ u.pc = s.pc + 2 ∧
      (∀ r, u.reg r = s.reg r) ∧ Frame { mem := [p, 0xF5] } s u

/-- IRET with SP at most 0xF6 pops R6 down to R0, then FL, then `pc`; SP rises by nine and no byte of memory
changes (43_control_transfer.md section 1; 92_eei_decisions.md D3). -/
def Obligations.IretPopsNineBytes : Prop :=
  ∀ s : State, (s.reg 7).toNat ≤ 0xF6 →
    ∃ t, exec .iret s = .next t ∧
      (∀ r : Reg, r ≠ 7 → t.reg r = s.mem.read ((s.reg 7).toNat + (6 - r.val))) ∧
      t.fl = s.mem.read ((s.reg 7).toNat + 7) ∧
      t.pc = (s.mem.read ((s.reg 7).toNat + 8)).zeroExtend 9 ∧
      (t.reg 7).toNat = (s.reg 7).toNat + 9 ∧
      Frame { regs := [0, 1, 2, 3, 4, 5, 6, 7], fl := true } s t

/-- IRET with SP above 0xF6 raises OutOfBoundsAccess, stack underflow (20_memory.md section 4;
92_eei_decisions.md D3, D6). -/
def Obligations.IretUnderflowFaults : Prop :=
  ∀ s : State, 0xF6 < (s.reg 7).toNat →
    Faults (exec .iret s) ⟨.outOfBoundsAccess, s.pc, .stackUnderflow 0xFF#8⟩ s.console

/-! ### Output and system -/

/-- PRN and PRA append the register's value to the console, NOP does nothing, HLT halts; `pc` moves past the
instruction, also past 0xFF, and nothing else changes (44_system.md section 1). -/
def Obligations.OutputAndSystemResults : Prop :=
  ∀ (d : Reg) (s : State),
    exec (.prn (regByte d)) s =
      .next { s with console := s.console ++ [.number (s.reg d)], pc := s.pc + 2 } ∧
    exec (.pra (regByte d)) s =
      .next { s with console := s.console ++ [.char (s.reg d)], pc := s.pc + 2 } ∧
    exec .nop s = .next { s with pc := s.pc + 1 } ∧
    exec .hlt s = .next { s with state := .halted, pc := s.pc + 1 }

/-! ### Interrupts -/

/-- 60_exceptions.md R172: a tick sets R6 bit 0 whatever R5 and R6 hold, and changes nothing in R6 when the
bit is set already; beside it only the checkpoint cell changes, and without a tick neither does. -/
def Obligations.TimerSetsStatusBitZero : Prop :=
  ∀ s : State,
    (s.tick = true → ((timerStep s).reg 6).getLsbD 0 = true ∧
      (∀ k, 0 < k → ((timerStep s).reg 6).getLsbD k = (s.reg 6).getLsbD k) ∧
      ((s.reg 6).getLsbD 0 = true → (timerStep s).reg 6 = s.reg 6)) ∧
    (s.tick = false → (timerStep s).reg 6 = s.reg 6 ∧
      ∀ a, (timerStep s).mem.read a = s.mem.read a) ∧
    (∀ r, r ≠ 6 → (timerStep s).reg r = s.reg r) ∧
    (∀ a, a ≠ 0xF7 → (timerStep s).mem.read a = s.mem.read a) ∧
    timerStep s = { s with
      regs := (timerStep s).regs, mem := (timerStep s).mem, tick := (timerStep s).tick
      draws := (timerStep s).draws }

/-- 60_exceptions.md R173, R174: with `pending = x[5] & x[6]` after the timer step, nothing happens when it is
0, and otherwise the line taken is the lowest one whose bit is set. -/
def Obligations.LowestPendingLineIsTaken : Prop :=
  ∀ (s : State) (i : Fin 8),
    let u := timerStep s
    let pending := u.reg 5 &&& u.reg 6
    (u.reg 6 = 0x00#8 → intCheck s = .ok u) ∧ (pending = 0x00#8 → intCheck s = .ok u) ∧
    (pending.getLsbD i.val = true → (∀ j : Fin 8, j < i → pending.getLsbD j.val = false) →
      intCheck s = interruptEntry i u)

/-- The entry sequence for line `i` with SP at least 9 and `pc` within memory (60_exceptions.md section 2, the
frame the spec derives): R6 bit `i` cleared, R5 0, SP nine lower, `pc` the vector, every other register and FL
kept; the nine bytes of the frame in their places; no other cell changed but the scratch cell, which is not
determined and so hides a frame byte that lies there (92_eei_decisions.md D11). -/
def Obligations.InterruptEntrySavesContext : Prop :=
  ∀ (i : Fin 8) (s : State) (p : Nat), s.mem.wf = true → s.pc.toNat ≤ 0xFF → (s.reg 7).toNat = p + 9 →
    let status := s.reg 6 &&& ~~~(BitVec.ofNat 8 (2 ^ i.val))
    let saved : List Byte := [status, s.reg 5, s.reg 4, s.reg 3, s.reg 2, s.reg 1, s.reg 0, s.fl,
      s.pc.truncate 8]
    ∃ t, interruptEntry i s = .ok t ∧ t.reg 6 = status ∧ t.reg 5 = 0x00#8 ∧ (t.reg 7).toNat = p ∧
      t.pc.toNat = 0xF8 + i.val ∧
      (∀ k, k < 9 → p + k ≠ 0xF5 → t.mem.read (p + k) = saved.getD k 0x00#8) ∧
      (∀ a, a ≠ 0xF5 → (a < p ∨ p + 9 ≤ a) → t.mem.read a = s.mem.read a) ∧
      (∀ r : Reg, r.val < 5 → t.reg r = s.reg r) ∧ t.fl = s.fl ∧ t.state = s.state ∧
      t.fault = s.fault ∧ t.console = s.console ∧ t.mem.wf = true

/-- 60_exceptions.md R180: an entry that runs out of stack stops the run with OutOfBoundsAccess, stack
overflow, and the record holds the `pc` at the start of the cycle. -/
def Obligations.InterruptEntryOverflowFaults : Prop :=
  ∀ (s : State) (i : Fin 8), s.state = .running → lineTaken (timerStep s) = some i → s.pc.toNat ≤ 0xFF →
    (s.reg 7).toNat < 9 →
    Faults (step s) ⟨.outOfBoundsAccess, s.pc, .stackOverflow 0x00#8⟩ s.console

/-- An interrupt that would have to push a `pc` above 0xFF stops the run with Unmodelled, before any push
(60_exceptions.md section 2; 92_eei_decisions.md D8). -/
def Obligations.InterruptAboveMemoryIsUnmodelled : Prop :=
  ∀ (s : State) (i : Fin 8), s.state = .running → lineTaken (timerStep s) = some i → 0xFF < s.pc.toNat →
    Faults (step s) ⟨.unmodelled, s.pc, .pushedPc s.pc⟩ s.console

/-- After an entry no further interrupt is taken, tick or not, until software writes the mask
(60_exceptions.md section 4). -/
def Obligations.NoNestingAfterEntry : Prop :=
  ∀ (i : Fin 8) (s t u : State), interruptEntry i s = .ok t → u.reg 5 = t.reg 5 →
    intCheck u = .ok (timerStep u)

/-- The cycle that takes an interrupt runs the handler's first instruction, at the vector address
(40_control_unit.md section 2; 92_eei_decisions.md D15). -/
def Obligations.HandlerRunsInSameCycle : Prop :=
  ∀ (s t : State) (i : Fin 8) (j : Instr), s.state = .running → lineTaken (timerStep s) = some i →
    interruptEntry i (timerStep s) = .ok t → 0xF8 + i.val + j.length ≤ 256 →
    (∀ k, k < j.length → t.mem.read (0xF8 + i.val + k) = (encode j).getD k 0x00#8) →
    t.pc.toNat = 0xF8 + i.val ∧ step s = exec j t

/-- IRET undoes an entry: from every state in canonical memory whose entry succeeds with a frame clear of the
scratch cell, IRET right after the entry restores `pc`, FL and every register, R6 with the taken line's bit
cleared; beside the frame and the scratch cell memory is as it was (60_exceptions.md section 4). -/
def Obligations.IretUndoesInterruptEntry : Prop :=
  ∀ (i : Fin 8) (s t : State) (p : Nat), s.mem.wf = true → interruptEntry i s = .ok t →
    (s.reg 7).toNat = p + 9 → (p + 9 ≤ 0xF5 ∨ 0xF5 < p) →
    ∃ u, exec .iret t = .next u ∧ u.pc = s.pc ∧ u.fl = s.fl ∧ (∀ r : Reg, r ≠ 6 → u.reg r = s.reg r) ∧
      u.reg 6 = s.reg 6 &&& ~~~(BitVec.ofNat 8 (2 ^ i.val)) ∧ u.state = s.state ∧ u.fault = s.fault ∧
      u.console = s.console ∧ ∀ a, a ≠ 0xF5 → (a < p ∨ p + 9 ≤ a) → u.mem.read a = s.mem.read a
end

