-- ==== Sys2Proof/Laws/State.lean ====
section
/-!
SUPPORT. One lemma per field per update of State, and the register file read back after each update.
-/
namespace Sys2Proof.Machine

/-! ### `setReg` -/

@[simp] theorem setReg_regs (s : State) (r : Reg) (v : Byte) : (s.setReg r v).regs = s.regs.set r v := rfl

@[simp] theorem setReg_fl (s : State) (r : Reg) (v : Byte) : (s.setReg r v).fl = s.fl := rfl

@[simp] theorem setReg_pc (s : State) (r : Reg) (v : Byte) : (s.setReg r v).pc = s.pc := rfl

@[simp] theorem setReg_state (s : State) (r : Reg) (v : Byte) : (s.setReg r v).state = s.state := rfl

@[simp] theorem setReg_fault (s : State) (r : Reg) (v : Byte) : (s.setReg r v).fault = s.fault := rfl

@[simp] theorem setReg_console (s : State) (r : Reg) (v : Byte) : (s.setReg r v).console = s.console := rfl

@[simp] theorem setReg_mem (s : State) (r : Reg) (v : Byte) : (s.setReg r v).mem = s.mem := rfl

@[simp] theorem setReg_tick (s : State) (r : Reg) (v : Byte) : (s.setReg r v).tick = s.tick := rfl

@[simp] theorem setReg_draws (s : State) (r : Reg) (v : Byte) : (s.setReg r v).draws = s.draws := rfl

/-- A register reads the value last written to it; every other register reads as before. -/
theorem reg_setReg (s : State) (r q : Reg) (v : Byte) :
    (s.setReg r v).reg q = if r = q then v else s.reg q := by
  simp [State.reg, State.setReg, Vector.getElem_set, Fin.ext_iff]

@[simp] theorem reg_setReg_same (s : State) (r : Reg) (v : Byte) : (s.setReg r v).reg r = v := by
  simp [reg_setReg]

@[simp] theorem reg_setReg_other (s : State) {r q : Reg} (h : r ≠ q) (v : Byte) :
    (s.setReg r v).reg q = s.reg q := by
  simp [reg_setReg, h]

/-! ### `setFl` -/

@[simp] theorem setFl_regs (s : State) (v : Byte) : (s.setFl v).regs = s.regs := rfl

@[simp] theorem setFl_fl (s : State) (v : Byte) : (s.setFl v).fl = v := rfl

@[simp] theorem setFl_pc (s : State) (v : Byte) : (s.setFl v).pc = s.pc := rfl

@[simp] theorem setFl_state (s : State) (v : Byte) : (s.setFl v).state = s.state := rfl

@[simp] theorem setFl_fault (s : State) (v : Byte) : (s.setFl v).fault = s.fault := rfl

@[simp] theorem setFl_console (s : State) (v : Byte) : (s.setFl v).console = s.console := rfl

@[simp] theorem setFl_mem (s : State) (v : Byte) : (s.setFl v).mem = s.mem := rfl

@[simp] theorem setFl_tick (s : State) (v : Byte) : (s.setFl v).tick = s.tick := rfl

@[simp] theorem setFl_draws (s : State) (v : Byte) : (s.setFl v).draws = s.draws := rfl

@[simp] theorem setFl_reg (s : State) (v : Byte) (q : Reg) : (s.setFl v).reg q = s.reg q := rfl

/-! ### `jumpTo` -/

@[simp] theorem jumpTo_regs (s : State) (v : Byte) : (s.jumpTo v).regs = s.regs := rfl

@[simp] theorem jumpTo_fl (s : State) (v : Byte) : (s.jumpTo v).fl = s.fl := rfl

@[simp] theorem jumpTo_pc (s : State) (v : Byte) : (s.jumpTo v).pc = v.zeroExtend 9 := rfl

@[simp] theorem jumpTo_state (s : State) (v : Byte) : (s.jumpTo v).state = s.state := rfl

@[simp] theorem jumpTo_fault (s : State) (v : Byte) : (s.jumpTo v).fault = s.fault := rfl

@[simp] theorem jumpTo_console (s : State) (v : Byte) : (s.jumpTo v).console = s.console := rfl

@[simp] theorem jumpTo_mem (s : State) (v : Byte) : (s.jumpTo v).mem = s.mem := rfl

@[simp] theorem jumpTo_tick (s : State) (v : Byte) : (s.jumpTo v).tick = s.tick := rfl

@[simp] theorem jumpTo_draws (s : State) (v : Byte) : (s.jumpTo v).draws = s.draws := rfl

@[simp] theorem jumpTo_reg (s : State) (v : Byte) (q : Reg) : (s.jumpTo v).reg q = s.reg q := rfl

/-! ### `advance` -/

@[simp] theorem advance_regs (s : State) (n : Nat) : (s.advance n).regs = s.regs := rfl

@[simp] theorem advance_fl (s : State) (n : Nat) : (s.advance n).fl = s.fl := rfl

@[simp] theorem advance_pc (s : State) (n : Nat) : (s.advance n).pc = s.pc + BitVec.ofNat 9 (n + 1) := rfl

@[simp] theorem advance_state (s : State) (n : Nat) : (s.advance n).state = s.state := rfl

@[simp] theorem advance_fault (s : State) (n : Nat) : (s.advance n).fault = s.fault := rfl

@[simp] theorem advance_console (s : State) (n : Nat) : (s.advance n).console = s.console := rfl

@[simp] theorem advance_mem (s : State) (n : Nat) : (s.advance n).mem = s.mem := rfl

@[simp] theorem advance_tick (s : State) (n : Nat) : (s.advance n).tick = s.tick := rfl

@[simp] theorem advance_draws (s : State) (n : Nat) : (s.advance n).draws = s.draws := rfl

@[simp] theorem advance_reg (s : State) (n : Nat) (q : Reg) : (s.advance n).reg q = s.reg q := rfl

/-! ### `store` -/

@[simp] theorem store_regs (s : State) (a v : Byte) : (s.store a v).regs = s.regs := rfl

@[simp] theorem store_fl (s : State) (a v : Byte) : (s.store a v).fl = s.fl := rfl

@[simp] theorem store_pc (s : State) (a v : Byte) : (s.store a v).pc = s.pc := rfl

@[simp] theorem store_state (s : State) (a v : Byte) : (s.store a v).state = s.state := rfl

@[simp] theorem store_fault (s : State) (a v : Byte) : (s.store a v).fault = s.fault := rfl

@[simp] theorem store_console (s : State) (a v : Byte) : (s.store a v).console = s.console := rfl

@[simp] theorem store_mem (s : State) (a v : Byte) : (s.store a v).mem = s.mem.write a.toNat v := rfl

@[simp] theorem store_tick (s : State) (a v : Byte) : (s.store a v).tick = s.tick := rfl

@[simp] theorem store_draws (s : State) (a v : Byte) : (s.store a v).draws = s.draws := rfl

@[simp] theorem store_reg (s : State) (a v : Byte) (q : Reg) : (s.store a v).reg q = s.reg q := rfl

/-! ### `emit` -/

@[simp] theorem emit_regs (s : State) (e : ConsoleEvent) : (s.emit e).regs = s.regs := rfl

@[simp] theorem emit_fl (s : State) (e : ConsoleEvent) : (s.emit e).fl = s.fl := rfl

@[simp] theorem emit_pc (s : State) (e : ConsoleEvent) : (s.emit e).pc = s.pc := rfl

@[simp] theorem emit_state (s : State) (e : ConsoleEvent) : (s.emit e).state = s.state := rfl

@[simp] theorem emit_fault (s : State) (e : ConsoleEvent) : (s.emit e).fault = s.fault := rfl

@[simp] theorem emit_console (s : State) (e : ConsoleEvent) : (s.emit e).console = s.console ++ [e] := rfl

@[simp] theorem emit_mem (s : State) (e : ConsoleEvent) : (s.emit e).mem = s.mem := rfl

@[simp] theorem emit_tick (s : State) (e : ConsoleEvent) : (s.emit e).tick = s.tick := rfl

@[simp] theorem emit_draws (s : State) (e : ConsoleEvent) : (s.emit e).draws = s.draws := rfl

@[simp] theorem emit_reg (s : State) (e : ConsoleEvent) (q : Reg) : (s.emit e).reg q = s.reg q := rfl

/-! ### `drawScratch` -/

@[simp] theorem drawScratch_regs (s : State) : (s.drawScratch).regs = s.regs := rfl

@[simp] theorem drawScratch_fl (s : State) : (s.drawScratch).fl = s.fl := rfl

@[simp] theorem drawScratch_pc (s : State) : (s.drawScratch).pc = s.pc := rfl

@[simp] theorem drawScratch_state (s : State) : (s.drawScratch).state = s.state := rfl

@[simp] theorem drawScratch_fault (s : State) : (s.drawScratch).fault = s.fault := rfl

@[simp] theorem drawScratch_console (s : State) : (s.drawScratch).console = s.console := rfl

@[simp] theorem drawScratch_mem (s : State) : (s.drawScratch).mem = s.mem.write 0xF5 (Config.scratch s.draws) := rfl

@[simp] theorem drawScratch_tick (s : State) : (s.drawScratch).tick = s.tick := rfl

@[simp] theorem drawScratch_draws (s : State) : (s.drawScratch).draws = s.draws + 1 := rfl

@[simp] theorem drawScratch_reg (s : State) (q : Reg) : (s.drawScratch).reg q = s.reg q := rfl

/-! ### `enterFaulted` -/

@[simp] theorem enterFaulted_state (s : State) (r : FaultRecord) : (s.enterFaulted r).state = .faulted := rfl

@[simp] theorem enterFaulted_fault (s : State) (r : FaultRecord) : (s.enterFaulted r).fault = some r := rfl

@[simp] theorem enterFaulted_console (s : State) (r : FaultRecord) :
    (s.enterFaulted r).console = s.console := rfl

/-! ### `timerStep` -/

@[simp] theorem timerStep_fl (s : State) : (timerStep s).fl = s.fl := rfl

@[simp] theorem timerStep_pc (s : State) : (timerStep s).pc = s.pc := rfl

@[simp] theorem timerStep_state (s : State) : (timerStep s).state = s.state := rfl

@[simp] theorem timerStep_fault (s : State) : (timerStep s).fault = s.fault := rfl

@[simp] theorem timerStep_console (s : State) : (timerStep s).console = s.console := rfl

@[simp] theorem timerStep_draws (s : State) : (timerStep s).draws = s.draws + 1 := rfl

/-- The timer step writes no register but R6 (60_exceptions.md R171). -/
theorem timerStep_reg (s : State) (q : Reg) :
    (timerStep s).reg q =
      if q = isReg then s.reg isReg ||| (if s.tick then 0x01#8 else 0x00#8) else s.reg q := by
  have h := reg_setReg s isReg q (s.reg isReg ||| (if s.tick then 0x01#8 else 0x00#8))
  by_cases hq : q = isReg
  · subst hq
    exact h
  · rw [if_neg hq]
    exact h.trans (if_neg (Ne.symm hq))

end Sys2Proof.Machine
end

