-- ==== Sys2Proof/Laws/Memory.lean ====
section
/-!
SUPPORT. Memory: a read after a write, and every memory operation keeps the canonical form.
-/
namespace Sys2Proof.Machine

/-! ### Read after write -/

theorem readCells_of_lt {low : Nat} {cs : List Host.Cell} (h : cellsWfFrom low cs = true) {a : Nat}
    (ha : a < low) : readCells cs a = unlisted := by
  induction cs generalizing low with
  | nil => rfl
  | cons c rest ih =>
    obtain ⟨b, w⟩ := c
    simp only [cellsWfFrom, Bool.and_eq_true, decide_eq_true_eq] at h
    have hb : b ≠ a := by omega
    simp only [readCells, hb, if_false]
    exact ih h.2 (by omega)

theorem readCells_consCell (a b : Nat) (v : Byte) (rest : List Host.Cell)
    (h : readCells rest a = unlisted ∨ v ≠ unlisted) :
    readCells (consCell a v rest) b = if a = b then v else readCells rest b := by
  unfold consCell
  split
  · next hv =>
    split
    · next hab =>
      rcases h with h | h
      · rw [← hab, h, hv]
      · exact absurd hv h
    · rfl
  · rfl

/-- Reading a list of cells in canonical form after a write. -/
theorem readCells_writeCells {low : Nat} {cs : List Host.Cell} (h : cellsWfFrom low cs = true) (a b : Nat)
    (v : Byte) : readCells (writeCells cs a v) b = if a = b then v else readCells cs b := by
  induction cs generalizing low with
  | nil => exact readCells_consCell a b v [] (.inl rfl)
  | cons c rest ih =>
    obtain ⟨k, w⟩ := c
    have h' := h
    simp only [cellsWfFrom, Bool.and_eq_true, decide_eq_true_eq] at h
    simp only [writeCells]
    split
    · next hk =>
      refine readCells_consCell a b v _ (.inl ?_)
      have hka : k ≠ a := by omega
      simp only [readCells, hka, if_false]
      exact readCells_of_lt h.2 (by omega)
    · split
      · next hk =>
        subst hk
        rw [readCells_consCell a b v rest (.inl (readCells_of_lt h.2 (by omega)))]
        by_cases hab : a = b <;> simp [readCells, hab]
      · next hk =>
        simp only [readCells, ih h.2]
        by_cases hkb : k = b
        · have : a ≠ b := by omega
          simp [hkb, this]
        · simp [hkb]

/-- A read after a write: the value written at that address, what was there before at every other. -/
theorem read_write {m : Memory} (h : m.wf = true) (a b : Nat) (v : Byte) :
    (m.write a v).read b = if a = b then v else m.read b := by
  unfold Memory.write Memory.read
  by_cases h1 : a = scratchAddr
  · subst h1
    by_cases hb : b = scratchAddr
    · simp [hb]
    · simp [hb, Ne.symm hb]
  · by_cases h2 : a = checkpointAddr
    · subst h2
      by_cases hb : b = checkpointAddr
      · subst hb
        simp
      · by_cases hc : b = scratchAddr
        · simp [hc]
        · simp [hb, hc, Ne.symm hb]
    · simp only [h1, h2, if_false]
      by_cases hb : b = scratchAddr
      · simp [hb, h1]
      · by_cases hc : b = checkpointAddr
        · subst hc
          simp [h2]
        · simp only [hb, hc, if_false]
          exact readCells_writeCells h a b v

@[simp] theorem read_write_same {m : Memory} (h : m.wf = true) (a : Nat) (v : Byte) :
    (m.write a v).read a = v := by
  simp [read_write h]

theorem read_write_other {m : Memory} (h : m.wf = true) {a b : Nat} (hab : a ≠ b) (v : Byte) :
    (m.write a v).read b = m.read b := by
  simp [read_write h, hab]

/-! ### The canonical form is kept -/

theorem cellsWfFrom_mono {low low' : Nat} (hl : low' ≤ low) {cs : List Host.Cell}
    (h : cellsWfFrom low cs = true) : cellsWfFrom low' cs = true := by
  cases cs with
  | nil => rfl
  | cons c rest =>
    simp only [cellsWfFrom, Bool.and_eq_true, decide_eq_true_eq] at h ⊢
    exact ⟨⟨⟨⟨⟨by omega, h.1.1.1.1.2⟩, h.1.1.1.2⟩, h.1.1.2⟩, h.1.2⟩, h.2⟩

theorem consCell_wf {low a : Nat} {v : Byte} {rest : List Host.Cell} (hl : low ≤ a) (ha : a ≤ 0xFF)
    (h1 : a ≠ scratchAddr) (h2 : a ≠ checkpointAddr) (h : cellsWfFrom (a + 1) rest = true) :
    cellsWfFrom low (consCell a v rest) = true := by
  unfold consCell
  split
  · exact cellsWfFrom_mono (by omega) h
  · next hv =>
    simp only [cellsWfFrom, Bool.and_eq_true, decide_eq_true_eq]
    exact ⟨⟨⟨⟨⟨hl, ha⟩, h1⟩, h2⟩, hv⟩, h⟩

theorem writeCells_wf {low a : Nat} (v : Byte) {cs : List Host.Cell} (hl : low ≤ a) (ha : a ≤ 0xFF)
    (h1 : a ≠ scratchAddr) (h2 : a ≠ checkpointAddr) (h : cellsWfFrom low cs = true) :
    cellsWfFrom low (writeCells cs a v) = true := by
  induction cs generalizing low with
  | nil => exact consCell_wf hl ha h1 h2 rfl
  | cons c rest ih =>
    obtain ⟨k, w⟩ := c
    have h' := h
    simp only [cellsWfFrom, Bool.and_eq_true, decide_eq_true_eq] at h
    simp only [writeCells]
    split
    · next hk =>
      refine consCell_wf hl ha h1 h2 ?_
      simp only [cellsWfFrom, Bool.and_eq_true, decide_eq_true_eq]
      exact ⟨⟨⟨⟨⟨by omega, h.1.1.1.1.2⟩, h.1.1.1.2⟩, h.1.1.2⟩, h.1.2⟩, h.2⟩
    · split
      · next hk =>
        subst hk
        exact consCell_wf hl ha h1 h2 h.2
      · simp only [cellsWfFrom, Bool.and_eq_true, decide_eq_true_eq]
        exact ⟨h.1, ih (by omega) h.2⟩

/-- Writing a cell of memory keeps the canonical form. -/
theorem write_wf {m : Memory} (h : m.wf = true) {a : Nat} (ha : a ≤ 0xFF) (v : Byte) :
    (m.write a v).wf = true := by
  unfold Memory.write
  by_cases h1 : a = scratchAddr
  · simpa [h1, Memory.wf] using h
  · by_cases h2 : a = checkpointAddr
    · simpa [h2, Memory.wf] using h
    · simp only [h1, h2, if_false]
      exact writeCells_wf v (Nat.zero_le _) ha h1 h2 h

@[simp] theorem write_byte_wf {m : Memory} (h : m.wf = true) (a v : Byte) :
    (m.write a.toNat v).wf = true :=
  write_wf h (by have := a.isLt; omega) v

@[simp] theorem drawScratch_wf {s : State} (h : s.mem.wf = true) : s.drawScratch.mem.wf = true :=
  write_wf h (by decide) _

@[simp] theorem timerStep_wf (s : State) : (timerStep s).mem.wf = s.mem.wf := rfl

/-- Reset memory is in canonical form. -/
@[simp] theorem reset_wf : Memory.reset.wf = true := rfl

/-- Filling memory keeps the canonical form. -/
theorem fill_wf (f : Nat → Byte) {m : Memory} (h : m.wf = true) :
    ∀ n, n ≤ 256 → (Memory.fill f m n).wf = true
  | 0, _ => h
  | n + 1, hn => write_wf (fill_wf f h n (by omega)) (by omega) _

@[simp] theorem enterFaulted_wf (s : State) (r : FaultRecord) : (s.enterFaulted r).mem.wf = true :=
  fill_wf _ reset_wf 256 (Nat.le_refl _)

/-- Placing bytes keeps the canonical form. -/
theorem placeBytes_wf {m : Memory} (h : m.wf = true) (a : Nat) (bs : List Byte) :
    (placeBytes m a bs).wf = true := by
  induction bs generalizing m a with
  | nil => exact h
  | cons b bs ih =>
    simp only [placeBytes]
    split
    · exact h
    · exact ih (write_wf h (by omega) b) _

/-- What placed bytes read as. -/
theorem read_placeBytes {m : Memory} (h : m.wf = true) (a : Nat) (bs : List Byte) (k : Nat) (hk : k ≤ 0xFF) :
    (placeBytes m a bs).read k = if a ≤ k then bs.getD (k - a) (m.read k) else m.read k := by
  induction bs generalizing m a with
  | nil => simp [placeBytes]
  | cons b bs ih =>
    simp only [placeBytes]
    split
    · next ha =>
      have : ¬ a ≤ k := by omega
      simp [this]
    · next ha =>
      rw [ih (write_wf h (by omega) b) (a + 1), read_write h]
      by_cases hak : a = k
      · subst hak
        simp
      · by_cases hlt : a ≤ k
        · have e : k - a = (k - (a + 1)) + 1 := by omega
          have h1 : a + 1 ≤ k := by omega
          simp [hak, hlt, h1, e]
        · have h1 : ¬ a + 1 ≤ k := by omega
          simp [hak, hlt, h1]

end Sys2Proof.Machine
end

