-- ==== Sys2Proof/Laws/Ops.lean ====
section
/-!
SUPPORT. What each shared operation can do, said once: when it answers a state and which, when it raises a
fatal error and which record.
-/
namespace Sys2Proof.Machine

/-! ### Sequencing -/

@[simp] theorem bind_ok {α β : Type} (a : α) (f : α → Except FaultRecord β) :
    (Except.ok a >>= f) = f a := rfl

@[simp] theorem bind_error {α β : Type} (r : FaultRecord) (f : α → Except FaultRecord β) :
    ((Except.error r : Except FaultRecord α) >>= f) = .error r := rfl

/-- A sequence answers when both parts do. -/
theorem bind_eq_ok_iff {α β : Type} {x : Except FaultRecord α} {f : α → Except FaultRecord β} {b : β} :
    (x >>= f) = .ok b ↔ ∃ a, x = .ok a ∧ f a = .ok b := by
  cases x <;> simp

/-- A sequence raises what its first failing part raises. -/
theorem bind_eq_error_iff {α β : Type} {x : Except FaultRecord α} {f : α → Except FaultRecord β}
    {r : FaultRecord} : (x >>= f) = .error r ↔ x = .error r ∨ ∃ a, x = .ok a ∧ f a = .error r := by
  cases x <;> simp

@[simp] theorem raise_eq {α : Type} (s : State) (k : FaultKind) (d : FaultDetail) :
    (raise s k d : Except FaultRecord α) = .error ⟨k, s.pc, d⟩ := rfl

@[simp] theorem settle_ok (s t : State) : settle s (.ok t) = .next t := rfl

@[simp] theorem settle_error (s : State) (r : FaultRecord) :
    settle s (.error r) = .next (s.enterFaulted r) := rfl

/-- A settled cycle answers a next state: the one it computed, or FAULTED with what it raised. -/
theorem settle_eq_next_iff {s t : State} {x : Except FaultRecord State} :
    settle s x = .next t ↔ x = .ok t ∨ ∃ r, x = .error r ∧ t = s.enterFaulted r := by
  cases x <;> simp [eq_comm]

/-- What a settled error means for the host: the record, and the console as it was. -/
theorem faults_settle (s : State) (r : FaultRecord) : Faults (settle s (.error r)) r s.console :=
  ⟨_, rfl, rfl, rfl, rfl⟩

/-! ### Register operands -/

theorem regOperand_ok_iff {s : State} {b : Byte} {r : Reg} :
    regOperand s b = .ok r ↔ b.toNat = r.val := by
  unfold regOperand
  split
  · simp [Fin.ext_iff]
  · have := r.isLt
    simp only [raise_eq, reduceCtorEq, false_iff]
    omega

theorem regOperand_error_iff {s : State} {b : Byte} {r : FaultRecord} :
    regOperand s b = .error r ↔ isRegIndex b = false ∧ r = ⟨.outOfBoundsAccess, s.pc, .registerIndex b⟩ := by
  unfold regOperand isRegIndex
  split <;> simp_all [eq_comm]

@[simp] theorem regByte_toNat (r : Reg) : (regByte r).toNat = r.val := by
  have := r.isLt
  simp only [regByte, BitVec.toNat_ofNat]
  omega

@[simp] theorem regOperand_regByte (s : State) (r : Reg) : regOperand s (regByte r) = .ok r :=
  regOperand_ok_iff.2 (regByte_toNat r)

@[simp] theorem withReg_regByte (r : Reg) (s : State) (body : Reg → Except FaultRecord State) :
    withReg (regByte r) s body = settle s (body r) := by
  simp [withReg]

@[simp] theorem withRegs_regByte (a b : Reg) (s : State) (body : Reg → Reg → Except FaultRecord State) :
    withRegs (regByte a) (regByte b) s body = settle s (body a b) := by
  simp [withRegs]

/-- A one-register instruction answers what its body answers, or FAULTED. -/
theorem withReg_eq_next {ra : Byte} {s t : State} {body : Reg → Except FaultRecord State}
    (h : withReg ra s body = .next t) :
    (∃ a, ra.toNat = a.val ∧ body a = .ok t) ∨ ∃ r, t = s.enterFaulted r := by
  rcases settle_eq_next_iff.1 h with h | ⟨r, -, rfl⟩
  · obtain ⟨a, ha, hb⟩ := bind_eq_ok_iff.1 h
    exact .inl ⟨a, regOperand_ok_iff.1 ha, hb⟩
  · exact .inr ⟨r, rfl⟩

/-- A two-register instruction answers what its body answers, or FAULTED. -/
theorem withRegs_eq_next {ra rb : Byte} {s t : State} {body : Reg → Reg → Except FaultRecord State}
    (h : withRegs ra rb s body = .next t) :
    (∃ a b, ra.toNat = a.val ∧ rb.toNat = b.val ∧ body a b = .ok t) ∨ ∃ r, t = s.enterFaulted r := by
  rcases settle_eq_next_iff.1 h with h | ⟨r, -, rfl⟩
  · obtain ⟨a, ha, h⟩ := bind_eq_ok_iff.1 h
    obtain ⟨b, hb, h⟩ := bind_eq_ok_iff.1 h
    exact .inl ⟨a, b, regOperand_ok_iff.1 ha, regOperand_ok_iff.1 hb, h⟩
  · exact .inr ⟨r, rfl⟩

/-! ### The stack primitives -/

theorem spDec_ok_iff {s t : State} :
    spDec s = .ok t ↔ s.reg spReg ≠ 0x00#8 ∧ t = s.setReg spReg (s.reg spReg - 1) := by
  unfold spDec
  split <;> simp_all [eq_comm]

theorem spDec_error_iff {s : State} {r : FaultRecord} :
    spDec s = .error r ↔
      s.reg spReg = 0x00#8 ∧ r = ⟨.outOfBoundsAccess, s.pc, .stackOverflow 0x00#8⟩ := by
  unfold spDec
  split <;> simp_all [eq_comm]

theorem spInc_ok_iff {s t : State} :
    spInc s = .ok t ↔ s.reg spReg ≠ 0xFF#8 ∧ t = s.setReg spReg (s.reg spReg + 1) := by
  unfold spInc
  split <;> simp_all [eq_comm]

theorem spInc_error_iff {s : State} {r : FaultRecord} :
    spInc s = .error r ↔
      s.reg spReg = 0xFF#8 ∧ r = ⟨.outOfBoundsAccess, s.pc, .stackUnderflow 0xFF#8⟩ := by
  unfold spInc
  split <;> simp_all [eq_comm]

theorem push_ok_iff {v : Byte} {s t : State} :
    push v s = .ok t ↔
      s.reg spReg ≠ 0x00#8 ∧ t = (s.setReg spReg (s.reg spReg - 1)).store (s.reg spReg - 1) v := by
  unfold push
  simp only [bind_eq_ok_iff, spDec_ok_iff]
  constructor
  · rintro ⟨_, ⟨h, rfl⟩, h'⟩
    exact ⟨h, by simpa [eq_comm] using h'⟩
  · rintro ⟨h, rfl⟩
    exact ⟨_, ⟨h, rfl⟩, by simp⟩

theorem push_error_iff {v : Byte} {s : State} {r : FaultRecord} :
    push v s = .error r ↔
      s.reg spReg = 0x00#8 ∧ r = ⟨.outOfBoundsAccess, s.pc, .stackOverflow 0x00#8⟩ := by
  unfold push
  simp [bind_eq_error_iff, spDec_error_iff]

theorem pop_ok_iff {s t : State} {v : Byte} :
    pop s = .ok (v, t) ↔
      s.reg spReg ≠ 0xFF#8 ∧ v = s.load (s.reg spReg) ∧ t = s.setReg spReg (s.reg spReg + 1) := by
  unfold pop
  simp only [bind_eq_ok_iff, spInc_ok_iff, Except.ok.injEq, Prod.mk.injEq]
  constructor
  · rintro ⟨_, ⟨h, rfl⟩, rfl, rfl⟩
    exact ⟨h, rfl, rfl⟩
  · rintro ⟨h, rfl, rfl⟩
    exact ⟨_, ⟨h, rfl⟩, rfl, rfl⟩

theorem pop_error_iff {s : State} {r : FaultRecord} :
    pop s = .error r ↔
      s.reg spReg = 0xFF#8 ∧ r = ⟨.outOfBoundsAccess, s.pc, .stackUnderflow 0xFF#8⟩ := by
  unfold pop
  simp [bind_eq_error_iff, spInc_error_iff]

/-! ### What the operations leave alone -/

/-- Everything but registers and memory is in `t` as in `s`, and memory stays in canonical form. -/
structure SameButRegsMem (s t : State) : Prop where
  fl : t.fl = s.fl
  pc : t.pc = s.pc
  state : t.state = s.state
  fault : t.fault = s.fault
  console : t.console = s.console
  tick : t.tick = s.tick
  draws : t.draws = s.draws
  wf : s.mem.wf = true → t.mem.wf = true

theorem SameButRegsMem.refl (s : State) : SameButRegsMem s s := ⟨rfl, rfl, rfl, rfl, rfl, rfl, rfl, id⟩

theorem SameButRegsMem.trans {s t u : State} (h : SameButRegsMem s t) (h' : SameButRegsMem t u) :
    SameButRegsMem s u :=
  ⟨h'.fl.trans h.fl, h'.pc.trans h.pc, h'.state.trans h.state, h'.fault.trans h.fault,
    h'.console.trans h.console, h'.tick.trans h.tick, h'.draws.trans h.draws, fun w => h'.wf (h.wf w)⟩

theorem push_same {v : Byte} {s t : State} (h : push v s = .ok t) : SameButRegsMem s t := by
  obtain ⟨-, rfl⟩ := push_ok_iff.1 h
  exact ⟨rfl, rfl, rfl, rfl, rfl, rfl, rfl, fun w => write_byte_wf w _ _⟩

theorem pop_same {v : Byte} {s t : State} (h : pop s = .ok (v, t)) : SameButRegsMem s t := by
  obtain ⟨-, -, rfl⟩ := pop_ok_iff.1 h
  exact ⟨rfl, rfl, rfl, rfl, rfl, rfl, rfl, id⟩

theorem pushRegs_same {rs : List Reg} {s t : State} (h : pushRegs rs s = .ok t) : SameButRegsMem s t := by
  induction rs generalizing s with
  | nil =>
    cases h
    exact .refl _
  | cons r rs ih =>
    obtain ⟨u, hu, h⟩ := bind_eq_ok_iff.1 h
    exact (push_same hu).trans (ih h)

theorem popRegs_same {rs : List Reg} {s t : State} (h : popRegs rs s = .ok t) : SameButRegsMem s t := by
  induction rs generalizing s with
  | nil =>
    cases h
    exact .refl _
  | cons r rs ih =>
    obtain ⟨⟨v, u⟩, hu, h⟩ := bind_eq_ok_iff.1 h
    refine (pop_same hu).trans (.trans ?_ (ih h))
    exact ⟨rfl, rfl, rfl, rfl, rfl, rfl, rfl, id⟩

/-! ### Pushing and popping register lists -/

/-- The byte one below a nonzero one. -/
theorem toNat_pred {b : Byte} (h : b ≠ 0x00#8) : (b - 1).toNat + 1 = b.toNat := by
  have h0 : b.toNat ≠ 0 := fun e => h (BitVec.eq_of_toNat_eq e)
  have := b.isLt
  have e : (1 : Byte).toNat = 1 := rfl
  rw [BitVec.toNat_sub, e]
  omega

/-- The byte one above one that is not 0xFF. -/
theorem toNat_succ {b : Byte} (h : b ≠ 0xFF#8) : (b + 1).toNat = b.toNat + 1 := by
  have h0 : b.toNat ≠ 255 := fun e => h (BitVec.eq_of_toNat_eq e)
  have := b.isLt
  have e : (1 : Byte).toNat = 1 := rfl
  rw [BitVec.toNat_add, e]
  omega

/-- One push: where SP ends, and every register and cell after it. -/
theorem push_spec {v : Byte} {s t : State} (w : s.mem.wf = true) (h : push v s = .ok t) :
    (t.reg spReg).toNat + 1 = (s.reg spReg).toNat ∧ (∀ q, q ≠ spReg → t.reg q = s.reg q) ∧
      ∀ a, t.mem.read a = if a + 1 = (s.reg spReg).toNat then v else s.mem.read a := by
  obtain ⟨h0, rfl⟩ := push_ok_iff.1 h
  have hp := toNat_pred h0
  refine ⟨by simpa using hp, fun q hq => by simp [Ne.symm hq], fun a => ?_⟩
  rw [store_mem, setReg_mem, read_write w]
  by_cases ha : a + 1 = (s.reg spReg).toNat
  · rw [if_pos ha, if_pos (by omega)]
  · rw [if_neg ha, if_neg (by omega)]

/-- Pushing registers other than R7: SP falls by their number, the k-th lies k + 1 below the old SP, and
nothing else changes. -/
theorem pushRegs_spec {rs : List Reg} {s t : State} (w : s.mem.wf = true) (h7 : spReg ∉ rs)
    (h : pushRegs rs s = .ok t) :
    (t.reg spReg).toNat + rs.length = (s.reg spReg).toNat ∧ (∀ q, q ≠ spReg → t.reg q = s.reg q) ∧
      (∀ k (hk : k < rs.length), t.mem.read ((s.reg spReg).toNat - 1 - k) = s.reg rs[k]) ∧
      ∀ a, (a + rs.length < (s.reg spReg).toNat ∨ (s.reg spReg).toNat ≤ a) → t.mem.read a = s.mem.read a := by
  induction rs generalizing s with
  | nil =>
    cases h
    exact ⟨rfl, fun _ _ => rfl, fun k hk => absurd hk (by simp), fun _ _ => rfl⟩
  | cons r rs ih =>
    obtain ⟨u, hu, h⟩ := bind_eq_ok_iff.1 h
    obtain ⟨p1, p2, p3⟩ := push_spec w hu
    simp only [List.mem_cons, not_or] at h7
    obtain ⟨q1, q2, q3, q4⟩ := ih ((push_same hu).wf w) h7.2 h
    refine ⟨by simp only [List.length_cons]; omega, fun q hq => by rw [q2 q hq, p2 q hq], ?_, ?_⟩
    · intro k hk
      cases k with
      | zero =>
        rw [q4 _ (by omega), p3, if_pos (by omega)]
        rfl
      | succ k =>
        have hk' : k < rs.length := by simpa using hk
        have e : (s.reg spReg).toNat - 1 - (k + 1) = (u.reg spReg).toNat - 1 - k := by omega
        rw [e, q3 k hk', List.getElem_cons_succ, p2]
        exact fun e => h7.2 (e ▸ List.getElem_mem hk')
    · intro a ha
      simp only [List.length_cons] at ha
      rw [q4 a (by omega), p3, if_neg (by omega)]

/-- Pushing registers succeeds when SP is high enough. -/
theorem pushRegs_ok {rs : List Reg} {s : State} (h : rs.length ≤ (s.reg spReg).toNat) :
    ∃ t, pushRegs rs s = .ok t := by
  induction rs generalizing s with
  | nil => exact ⟨s, rfl⟩
  | cons r rs ih =>
    have h0 : s.reg spReg ≠ 0x00#8 := by
      intro e
      simp [e] at h
    have hp := toNat_pred h0
    have hu := (push_ok_iff (v := s.reg r) (s := s)).2 ⟨h0, rfl⟩
    obtain ⟨t, ht⟩ := ih (s := (s.setReg spReg (s.reg spReg - 1)).store (s.reg spReg - 1) (s.reg r))
      (by simp only [List.length_cons] at h; simp only [store_reg, reg_setReg_same]; omega)
    exact ⟨t, bind_eq_ok_iff.2 ⟨_, hu, ht⟩⟩

/-- Popping into distinct registers other than R7: SP rises by their number, the k-th takes the byte k above
the old SP, and nothing else changes. -/
theorem popRegs_spec {rs : List Reg} {s t : State} (h7 : spReg ∉ rs) (hd : rs.Nodup)
    (h : popRegs rs s = .ok t) :
    (t.reg spReg).toNat = (s.reg spReg).toNat + rs.length ∧
      (∀ q, q ≠ spReg → q ∉ rs → t.reg q = s.reg q) ∧
      (∀ k (hk : k < rs.length), t.reg rs[k] = s.mem.read ((s.reg spReg).toNat + k)) ∧ t.mem = s.mem := by
  induction rs generalizing s with
  | nil =>
    cases h
    exact ⟨rfl, fun _ _ _ => rfl, fun k hk => absurd hk (by simp), rfl⟩
  | cons r rs ih =>
    obtain ⟨⟨v, u⟩, hu, h⟩ := bind_eq_ok_iff.1 h
    obtain ⟨h0, rfl, rfl⟩ := pop_ok_iff.1 hu
    simp only [List.mem_cons, not_or] at h7
    have hr : r ≠ spReg := Ne.symm h7.1
    obtain ⟨q1, q2, q3, q4⟩ := ih h7.2 (List.nodup_cons.1 hd).2 h
    have e : (((s.setReg spReg (s.reg spReg + 1)).setReg r (s.load (s.reg spReg))).reg spReg) =
        s.reg spReg + 1 := by simp [hr]
    rw [e, toNat_succ h0] at q1 q3
    refine ⟨by simp only [List.length_cons]; omega, ?_, ?_, by simpa using q4⟩
    · intro q hq hqr
      simp only [List.mem_cons, not_or] at hqr
      rw [q2 q hq hqr.2, reg_setReg_other _ (Ne.symm hqr.1), reg_setReg_other _ (Ne.symm hq)]
    · intro k hk
      cases k with
      | zero =>
        show t.reg r = _
        rw [q2 r hr (List.nodup_cons.1 hd).1, reg_setReg_same]
        rfl
      | succ k =>
        have hk' : k < rs.length := by simpa using hk
        rw [List.getElem_cons_succ, q3 k hk']
        simp [Nat.add_assoc, Nat.add_comm 1 k]

/-- Popping registers other than R7 succeeds when SP stays at or below 0xFF. -/
theorem popRegs_ok {rs : List Reg} {s : State} (h7 : spReg ∉ rs)
    (h : (s.reg spReg).toNat + rs.length ≤ 0xFF) : ∃ t, popRegs rs s = .ok t := by
  induction rs generalizing s with
  | nil => exact ⟨s, rfl⟩
  | cons r rs ih =>
    simp only [List.mem_cons, not_or] at h7
    have h0 : s.reg spReg ≠ 0xFF#8 := by
      intro e
      simp [e] at h
    have hu := (pop_ok_iff (s := s)).2 ⟨h0, rfl, rfl⟩
    obtain ⟨t, ht⟩ := ih h7.2
      (s := (s.setReg spReg (s.reg spReg + 1)).setReg r (s.load (s.reg spReg)))
      (by
        simp only [List.length_cons] at h
        rw [reg_setReg_other _ (Ne.symm h7.1), reg_setReg_same, toNat_succ h0]
        omega)
    exact ⟨t, bind_eq_ok_iff.2 ⟨_, hu, ht⟩⟩

/-! ### Interrupts -/

/-- The interrupt check takes no interrupt, or enters the lowest line pending and enabled. -/
theorem intCheck_cases (s : State) :
    (lineTaken (timerStep s) = none ∧ intCheck s = .ok (timerStep s)) ∨
      ∃ i, lineTaken (timerStep s) = some i ∧ intCheck s = interruptEntry i (timerStep s) := by
  unfold intCheck dispatchInterrupt
  cases h : lineTaken (timerStep s) with
  | none => exact .inl ⟨rfl, rfl⟩
  | some i => exact .inr ⟨i, rfl, rfl⟩

/-- A line is pending when its bit of `x[5] & x[6]` is set (60_exceptions.md R173). -/
theorem linePending_eq (s : State) (i : Fin 8) :
    linePending s i = (s.reg imReg &&& s.reg isReg).getLsbD i := by
  simp [linePending]

/-- With no bit of R6 set no line is taken (60_exceptions.md R173). -/
theorem lineTaken_of_status_zero {s : State} (h : s.reg isReg = 0x00#8) : lineTaken s = none := by
  simp [lineTaken, linePending, h]

/-- With the mask 0 no line is taken (60_exceptions.md R188). -/
theorem lineTaken_of_mask_zero {s : State} (h : s.reg imReg = 0x00#8) : lineTaken s = none := by
  simp [lineTaken, linePending, h]

end Sys2Proof.Machine
end

