-- ==== Sys2Proof/Laws/PerInstr.lean ====
section
/-!
SUPPORT. Per-instruction laws, one lemma per constructor of Instr. Family `EncodedLength`: the encoding has
the instruction's length, its opcode byte is the mnemonic's and bits 7-6 of it count the operand bytes, and a
well-formed instruction's register operands are at most 7 (30_encoding.md R57, R60, R61, R66).
-/
namespace Sys2Proof.Laws.EncodedLength

/-- The encoding of `i` is its opcode byte and as many operand bytes as the opcode's bits 7-6 say, among them
the register operands; when `i` is well formed each of these is at most 7. -/
def Statement (i : Instr) : Prop :=
  (encode i).length = i.length ∧ i.length = opcountField i.mnemonic.opcode + 1 ∧
    (encode i).head? = some i.mnemonic.opcode ∧ decodeOpcode i.mnemonic.opcode = some i.mnemonic ∧
    (i.wellFormed = true → ∀ b ∈ i.regOperands, b.toNat ≤ 7)

/-- Bits 7-6 of each opcode byte of the table count the operand bytes of its format. -/
theorem opcountField_opcode (m : Mnemonic) : opcountField m.opcode = m.format.operandCount := by
  cases m <;> decide

/-- The length is told from the opcode byte. -/
theorem length_eq (i : Instr) : i.length = opcountField i.mnemonic.opcode + 1 :=
  congrArg (· + 1) (opcountField_opcode i.mnemonic).symm

/-- The register operands of a well-formed instruction are at most 7. -/
theorem regOperands_le {i : Instr} (h : i.wellFormed = true) : ∀ b ∈ i.regOperands, b.toNat ≤ 7 := by
  intro b hb
  have h1 := List.all_eq_true.1 h b hb
  have h2 := of_decide_eq_true h1
  omega

theorem nop : Statement .nop := ⟨rfl, length_eq _, rfl, rfl, regOperands_le⟩

theorem hlt : Statement .hlt := ⟨rfl, length_eq _, rfl, rfl, regOperands_le⟩

theorem ret : Statement .ret := ⟨rfl, length_eq _, rfl, rfl, regOperands_le⟩

theorem iret : Statement .iret := ⟨rfl, length_eq _, rfl, rfl, regOperands_le⟩

theorem push (ra : Byte) : Statement (.push ra) := ⟨rfl, length_eq _, rfl, rfl, regOperands_le⟩

theorem pop (ra : Byte) : Statement (.pop ra) := ⟨rfl, length_eq _, rfl, rfl, regOperands_le⟩

theorem prn (ra : Byte) : Statement (.prn ra) := ⟨rfl, length_eq _, rfl, rfl, regOperands_le⟩

theorem pra (ra : Byte) : Statement (.pra ra) := ⟨rfl, length_eq _, rfl, rfl, regOperands_le⟩

theorem call (ra : Byte) : Statement (.call ra) := ⟨rfl, length_eq _, rfl, rfl, regOperands_le⟩

theorem jmp (ra : Byte) : Statement (.jmp ra) := ⟨rfl, length_eq _, rfl, rfl, regOperands_le⟩

theorem jeq (ra : Byte) : Statement (.jeq ra) := ⟨rfl, length_eq _, rfl, rfl, regOperands_le⟩

theorem jne (ra : Byte) : Statement (.jne ra) := ⟨rfl, length_eq _, rfl, rfl, regOperands_le⟩

theorem jgt (ra : Byte) : Statement (.jgt ra) := ⟨rfl, length_eq _, rfl, rfl, regOperands_le⟩

theorem jlt (ra : Byte) : Statement (.jlt ra) := ⟨rfl, length_eq _, rfl, rfl, regOperands_le⟩

theorem jle (ra : Byte) : Statement (.jle ra) := ⟨rfl, length_eq _, rfl, rfl, regOperands_le⟩

theorem jge (ra : Byte) : Statement (.jge ra) := ⟨rfl, length_eq _, rfl, rfl, regOperands_le⟩

theorem inc (ra : Byte) : Statement (.inc ra) := ⟨rfl, length_eq _, rfl, rfl, regOperands_le⟩

theorem dec (ra : Byte) : Statement (.dec ra) := ⟨rfl, length_eq _, rfl, rfl, regOperands_le⟩

theorem not (ra : Byte) : Statement (.not ra) := ⟨rfl, length_eq _, rfl, rfl, regOperands_le⟩

theorem ldi (ra imm : Byte) : Statement (.ldi ra imm) := ⟨rfl, length_eq _, rfl, rfl, regOperands_le⟩

theorem ld (ra rb : Byte) : Statement (.ld ra rb) := ⟨rfl, length_eq _, rfl, rfl, regOperands_le⟩

theorem st (ra rb : Byte) : Statement (.st ra rb) := ⟨rfl, length_eq _, rfl, rfl, regOperands_le⟩

theorem add (ra rb : Byte) : Statement (.add ra rb) := ⟨rfl, length_eq _, rfl, rfl, regOperands_le⟩

theorem sub (ra rb : Byte) : Statement (.sub ra rb) := ⟨rfl, length_eq _, rfl, rfl, regOperands_le⟩

theorem mul (ra rb : Byte) : Statement (.mul ra rb) := ⟨rfl, length_eq _, rfl, rfl, regOperands_le⟩

theorem div (ra rb : Byte) : Statement (.div ra rb) := ⟨rfl, length_eq _, rfl, rfl, regOperands_le⟩

theorem mod (ra rb : Byte) : Statement (.mod ra rb) := ⟨rfl, length_eq _, rfl, rfl, regOperands_le⟩

theorem cmp (ra rb : Byte) : Statement (.cmp ra rb) := ⟨rfl, length_eq _, rfl, rfl, regOperands_le⟩

theorem and (ra rb : Byte) : Statement (.and ra rb) := ⟨rfl, length_eq _, rfl, rfl, regOperands_le⟩

theorem or (ra rb : Byte) : Statement (.or ra rb) := ⟨rfl, length_eq _, rfl, rfl, regOperands_le⟩

theorem xor (ra rb : Byte) : Statement (.xor ra rb) := ⟨rfl, length_eq _, rfl, rfl, regOperands_le⟩

theorem shl (ra rb : Byte) : Statement (.shl ra rb) := ⟨rfl, length_eq _, rfl, rfl, regOperands_le⟩

theorem shr (ra rb : Byte) : Statement (.shr ra rb) := ⟨rfl, length_eq _, rfl, rfl, regOperands_le⟩

end Sys2Proof.Laws.EncodedLength
end

