-- ==== Sys2Proof/Tests/Slice0.lean ====
section
/-!
SUPPORT. The model's own tests. Each expected value comes from a table, a worked example or a vector of spec/
(named in the comment), never from the model. The theorems named `witness_` show a concrete state and operands that
meet all the hypotheses of the obligation they name, a clause and a boundary at a time.
-/
namespace Sys2Proof.Tests
open Sys2Proof.Machine

/-! ### Helpers -/

/-- Reset state with these registers R0 to R6, stack pointer, FL, `pc` and memory bytes, and no tick at the
coming check. -/
def st (regs : List Byte) (sp : Byte) (fl : Byte) (pc : PcWord) (cells : List (Nat × Byte)) : State :=
  { State.reset with
    regs := #v[regs.getD 0 0, regs.getD 1 0, regs.getD 2 0, regs.getD 3 0, regs.getD 4 0, regs.getD 5 0,
      regs.getD 6 0, sp]
    fl := fl
    pc := pc
    mem := cells.foldl (fun m c => m.write c.1 c.2) ⟨[], 0x00#8, 0x00#8⟩
    tick := false }

/-- One cycle from `s` ends in a next state of which `f` holds. -/
def after (s : State) (f : State → Bool) : Bool :=
  match step s with
  | .next t => f t
  | .fault _ => false
  | .refused _ => false

/-- One cycle from `s` ends in FAULTED with this record. -/
def faultsWith (s : State) (r : FaultRecord) : Bool :=
  after s fun t => decide (t.state = .faulted) && decide (t.fault = some r)

/-- `OP R0, R1` or `OP R0` with these values, at address 0. -/
def alu (op a b : Byte) : State := st [a, b] 0xF4 0x00 0 [(0, op), (1, 0), (2, 1)]

/-- The jump byte `op` on R3 = 0x40 at 0x10 with these flags. -/
def jump (op fl : Byte) : State := st [0, 0, 0, 0x40] 0xF4 fl 0x10 [(0x10, op), (0x11, 3)]

/-! ### Well-formedness: a term each check refuses (30_encoding.md R61, R64) -/

theorem test_wf_byte1_refused : (Instr.add 8#8 0#8).wellFormed = false := by decide

theorem test_wf_byte2_refused : (Instr.add 0#8 8#8).wellFormed = false := by decide

theorem test_wf_high_bit_refused : (Instr.push 0x80#8).wellFormed = false := by decide

theorem test_wf_ldi_register_refused : (Instr.ldi 8#8 5#8).wellFormed = false := by decide

theorem test_wf_immediate_free : (Instr.ldi 7#8 0xFF#8).wellFormed = true := by decide

/-! ### Decoding: each word written bit by bit from 30_encoding.md R59 (its column "binary") and R60 -/

theorem test_decode_nop : decode [0b00000000#8] = .ok (.nop, []) := rfl

theorem test_decode_hlt : decode [0b00000001#8] = .ok (.hlt, []) := rfl

theorem test_decode_ret : decode [0b00010001#8] = .ok (.ret, []) := rfl

theorem test_decode_iret : decode [0b00010011#8] = .ok (.iret, []) := rfl

theorem test_decode_push : decode [0b01000101#8, 0b00000101#8] = .ok (.push 0x05#8, []) := rfl

theorem test_decode_pop : decode [0b01000110#8, 0b00000000#8] = .ok (.pop 0x00#8, []) := rfl

theorem test_decode_prn : decode [0b01000111#8, 0b00000011#8] = .ok (.prn 0x03#8, []) := rfl

theorem test_decode_pra : decode [0b01001000#8, 0b00000110#8] = .ok (.pra 0x06#8, []) := rfl

theorem test_decode_call : decode [0b01010000#8, 0b00000001#8] = .ok (.call 0x01#8, []) := rfl

theorem test_decode_jmp : decode [0b01010100#8, 0b00000100#8] = .ok (.jmp 0x04#8, []) := rfl

theorem test_decode_jeq : decode [0b01010101#8, 0b00000111#8] = .ok (.jeq 0x07#8, []) := rfl

theorem test_decode_jne : decode [0b01010110#8, 0b00000010#8] = .ok (.jne 0x02#8, []) := rfl

theorem test_decode_jgt : decode [0b01010111#8, 0b00000101#8] = .ok (.jgt 0x05#8, []) := rfl

theorem test_decode_jlt : decode [0b01011000#8, 0b00000000#8] = .ok (.jlt 0x00#8, []) := rfl

theorem test_decode_jle : decode [0b01011001#8, 0b00000011#8] = .ok (.jle 0x03#8, []) := rfl

theorem test_decode_jge : decode [0b01011010#8, 0b00000110#8] = .ok (.jge 0x06#8, []) := rfl

theorem test_decode_inc : decode [0b01100101#8, 0b00000001#8] = .ok (.inc 0x01#8, []) := rfl

theorem test_decode_dec : decode [0b01100110#8, 0b00000100#8] = .ok (.dec 0x04#8, []) := rfl

theorem test_decode_not : decode [0b01101001#8, 0b00000111#8] = .ok (.not 0x07#8, []) := rfl

theorem test_decode_ldi : decode [0b10000010#8, 0b00000111#8, 0b10100101#8] = .ok (.ldi 0x07#8 0xA5#8, []) := rfl

theorem test_decode_ld : decode [0b10000011#8, 0b00000101#8, 0b00000110#8] = .ok (.ld 0x05#8 0x06#8, []) := rfl

theorem test_decode_st : decode [0b10000100#8, 0b00000000#8, 0b00000011#8] = .ok (.st 0x00#8 0x03#8, []) := rfl

theorem test_decode_add : decode [0b10100000#8, 0b00000011#8, 0b00000000#8] = .ok (.add 0x03#8 0x00#8, []) := rfl

theorem test_decode_sub : decode [0b10100001#8, 0b00000110#8, 0b00000101#8] = .ok (.sub 0x06#8 0x05#8, []) := rfl

theorem test_decode_mul : decode [0b10100010#8, 0b00000001#8, 0b00000010#8] = .ok (.mul 0x01#8 0x02#8, []) := rfl

theorem test_decode_div : decode [0b10100011#8, 0b00000100#8, 0b00000111#8] = .ok (.div 0x04#8 0x07#8, []) := rfl

theorem test_decode_mod : decode [0b10100100#8, 0b00000111#8, 0b00000100#8] = .ok (.mod 0x07#8 0x04#8, []) := rfl

theorem test_decode_cmp : decode [0b10100111#8, 0b00000010#8, 0b00000001#8] = .ok (.cmp 0x02#8 0x01#8, []) := rfl

theorem test_decode_and : decode [0b10101000#8, 0b00000101#8, 0b00000110#8] = .ok (.and 0x05#8 0x06#8, []) := rfl

theorem test_decode_or : decode [0b10101010#8, 0b00000000#8, 0b00000011#8] = .ok (.or 0x00#8 0x03#8, []) := rfl

theorem test_decode_xor : decode [0b10101011#8, 0b00000011#8, 0b00000000#8] = .ok (.xor 0x03#8 0x00#8, []) := rfl

theorem test_decode_shl : decode [0b10101100#8, 0b00000110#8, 0b00000101#8] = .ok (.shl 0x06#8 0x05#8, []) := rfl

theorem test_decode_shr : decode [0b10101101#8, 0b00000001#8, 0b00000010#8] = .ok (.shr 0x01#8 0x02#8, []) := rfl

/-- 95_test_vectors.md section 2.1, the illegal bytes. -/
theorem test_decode_illegal :
    [0x02#8, 0x10#8, 0x12#8, 0x14#8, 0x44#8, 0x49#8, 0x51#8, 0x52#8, 0x53#8, 0x5B#8, 0x64#8, 0x67#8, 0x68#8,
      0x6A#8, 0x81#8, 0x85#8, 0xA5#8, 0xA6#8, 0xA9#8, 0xAE#8, 0xC0#8, 0xFF#8].all
        (fun b => decide (opInfo b = none)) = true := by decide

/-- 30_encoding.md R63: 256 - 33 = 223 illegal bytes. -/
theorem test_decode_legal_count :
    ((List.range 256).filter fun n => (decodeOpcode (BitVec.ofNat 8 n)).isSome).length = 33 := by decide

/-- Operand bytes follow the opcode in order; a table word numbers them upward (30_encoding.md R60). -/
theorem test_table_word : decodeTableWord 24 0x0302A1 = some (.sub 2#8 3#8) := by decide

/-- Every row of 30_encoding.md R59, as a table word of its opcode byte alone. -/
theorem test_table_rows :
    opcodeTable.length = 33 ∧ opcodeTable.all (fun m =>
      decide ((decodeTableWord 8 m.opcode.toNat).map Instr.mnemonic = some m)) = true := by decide

/-- The operand byte that the table gives no bits is 0. -/
theorem test_table_word_short : decodeTableWord 8 0x045 = some (.push 0#8) := by decide

/-- The word placed for the next cycle is what that cycle runs: LDI R1, 0x2A from reset. -/
theorem test_with_fetch_word :
    after (State.reset.withFetchWord 24 0x2A0182) (fun t => t.reg 1 == 0x2A#8 && t.pc == 3#9) = true := by decide

/-! ### The cycle (95_test_vectors.md section 2.2) -/

/-- CU1, second cycle: the fetch from 0x100. -/
theorem test_fetch_above_memory :
    faultsWith (st [] 0xF4 0 0x100 []) ⟨.outOfBoundsAccess, 0x100, .fetchAddress 0x100⟩ = true := by decide

/-- CU3: LDI at 0xFE. -/
theorem test_operand_above_memory :
    faultsWith (st [] 0xF4 0 0xFE [(0xFE, 0x82)]) ⟨.outOfBoundsAccess, 0xFE, .fetchAddress 0x100⟩ = true := by
  decide

/-- CU7: a jump not taken still has its register checked. -/
theorem test_regcheck_before_execute :
    faultsWith (st [] 0xF4 0 0 [(0, 0x55), (1, 9)]) ⟨.outOfBoundsAccess, 0, .registerIndex 9⟩ = true := by decide

/-- CU8: the register check comes before the division check. -/
theorem test_regcheck_before_division :
    faultsWith (st [5] 0xF4 0 0 [(0, 0xA3), (1, 0), (2, 9)]) ⟨.outOfBoundsAccess, 0, .registerIndex 9⟩ = true := by
  decide

/-- W3a: no operand is interpreted after an unknown opcode. -/
theorem test_unknown_opcode :
    faultsWith (st [] 0xF4 0 0 [(0, 0x85), (1, 9), (2, 9)]) ⟨.unknownOpcode, 0, .opcode 0x85⟩ = true := by decide

/-- HALTED and FAULTED have no cycle (10_state.md R29). -/
theorem test_terminal_states :
    step { State.reset with state := .halted } = .fault .halted ∧
      step { State.reset with state := .faulted } = .fault .faulted := ⟨rfl, rfl⟩

/-! ### ALU (95_test_vectors.md section 2.3) -/

theorem test_add :
    after (alu 0xA0 0x0F 0xF2) (fun t => t.reg 0 == 0x01#8 && t.reg 1 == 0xF2#8 && t.fl == 0#8 && t.pc == 3#9) = true ∧
      after (alu 0xA0 0xFF 0x01) (fun t => t.reg 0 == 0x00#8 && t.reg 1 == 0x01#8 && t.fl == 0#8 && t.pc == 3#9) = true := by decide

theorem test_sub :
    after (alu 0xA1 0x00 0x01) (fun t => t.reg 0 == 0xFF#8 && t.reg 1 == 0x01#8 && t.fl == 0#8 && t.pc == 3#9) = true ∧
      after (alu 0xA1 0x05 0x07) (fun t => t.reg 0 == 0xFE#8 && t.reg 1 == 0x07#8 && t.fl == 0#8 && t.pc == 3#9) = true := by decide

theorem test_mul :
    after (alu 0xA2 0xFF 0xFF) (fun t => t.reg 0 == 0x01#8 && t.reg 1 == 0xFF#8 && t.fl == 0#8 && t.pc == 3#9) = true ∧
      after (alu 0xA2 0x0F 0x11) (fun t => t.reg 0 == 0xFF#8 && t.reg 1 == 0x11#8 && t.fl == 0#8 && t.pc == 3#9) = true := by decide

theorem test_mod :
    after (alu 0xA4 0x64 0x07) (fun t => t.reg 0 == 0x02#8 && t.reg 1 == 0x07#8 && t.fl == 0#8 && t.pc == 3#9) = true ∧
      after (alu 0xA4 0x05 0x09) (fun t => t.reg 0 == 0x05#8 && t.reg 1 == 0x09#8 && t.fl == 0#8 && t.pc == 3#9) = true := by decide

theorem test_and :
    after (alu 0xA8 0xF0 0x3C) (fun t => t.reg 0 == 0x30#8 && t.reg 1 == 0x3C#8 && t.fl == 0#8 && t.pc == 3#9) = true := by decide

theorem test_or :
    after (alu 0xAA 0xF0 0x3C) (fun t => t.reg 0 == 0xFC#8 && t.reg 1 == 0x3C#8 && t.fl == 0#8 && t.pc == 3#9) = true := by decide

theorem test_xor :
    after (alu 0xAB 0xF0 0x3C) (fun t => t.reg 0 == 0xCC#8 && t.reg 1 == 0x3C#8 && t.fl == 0#8 && t.pc == 3#9) = true := by decide

theorem test_shl :
    after (alu 0xAC 0x01 0x08) (fun t => t.reg 0 == 0x00#8 && t.reg 1 == 0x08#8 && t.fl == 0#8 && t.pc == 3#9) = true ∧
      after (alu 0xAC 0x81 0x01) (fun t => t.reg 0 == 0x02#8 && t.reg 1 == 0x01#8 && t.fl == 0#8 && t.pc == 3#9) = true := by decide

theorem test_shr :
    after (alu 0xAD 0x80 0x01) (fun t => t.reg 0 == 0x40#8 && t.reg 1 == 0x01#8 && t.fl == 0#8 && t.pc == 3#9) = true ∧
      after (alu 0xAD 0xFF 0x08) (fun t => t.reg 0 == 0x00#8 && t.reg 1 == 0x08#8 && t.fl == 0#8 && t.pc == 3#9) = true := by decide

theorem test_div :
    after (alu 0xA3 0x64 0x07) (fun t => t.reg 0 == 0x0E#8 && t.reg 1 == 0x07#8 && t.fl == 0#8 && t.pc == 3#9) = true ∧
      after (alu 0xA3 0xFF 0x02) (fun t => t.reg 0 == 0x7F#8 && t.reg 1 == 0x02#8 && t.fl == 0#8 && t.pc == 3#9) = true := by decide

theorem test_inc :
    after (alu 0x65 0xFF 0) (fun t => t.reg 0 == 0x00#8 && t.fl == 0#8 && t.pc == 2#9) = true ∧
      after (alu 0x65 0x41 0) (fun t => t.reg 0 == 0x42#8 && t.fl == 0#8 && t.pc == 2#9) = true := by decide

theorem test_dec :
    after (alu 0x66 0x00 0) (fun t => t.reg 0 == 0xFF#8 && t.fl == 0#8 && t.pc == 2#9) = true ∧
      after (alu 0x66 0x01 0) (fun t => t.reg 0 == 0x00#8 && t.fl == 0#8 && t.pc == 2#9) = true := by decide

theorem test_not :
    after (alu 0x69 0x00 0) (fun t => t.reg 0 == 0xFF#8 && t.fl == 0#8 && t.pc == 2#9) = true ∧
      after (alu 0x69 0x5A 0) (fun t => t.reg 0 == 0xA5#8 && t.fl == 0#8 && t.pc == 2#9) = true := by decide

/-- DIV and MOD by 0, with the opcode byte in the record. -/
theorem test_division_by_zero :
    faultsWith (alu 0xA3 5 0) ⟨.divisionByZero, 0, .opcode 0xA3⟩ = true ∧
      faultsWith (alu 0xA4 9 0) ⟨.divisionByZero, 0, .opcode 0xA4⟩ = true := by decide

/-- The same register as source and destination: SHL 3 by 3 is 0x18, DIV 9 by 9 is 1. -/
theorem test_same_register :
    after (st [3] 0xF4 0 0 [(0, 0xAC)]) (fun t => t.reg 0 == 0x18#8) = true ∧
      after (st [9] 0xF4 0 0 [(0, 0xA3)]) (fun t => t.reg 0 == 0x01#8) = true := by decide

/-- The CMP table: unsigned, the whole of FL written. -/
theorem test_cmp :
    after (alu 0xA7 0x80 0x7F) (fun t => t.fl == 0x02#8 && t.reg 0 == 0x80#8 && t.reg 1 == 0x7F#8) = true ∧
      after (alu 0xA7 0x00 0xFF) (fun t => t.fl == 0x04#8) = true ∧
      after (st [1, 2] 0xF4 0xF8 0 [(0, 0xA7), (1, 0), (2, 1)]) (fun t => t.fl == 0x04#8) = true := by decide

/-- CMP of a register with itself. -/
theorem test_cmp_equal :
    after (st [0x10] 0xF4 0x07 0 [(0, 0xA7)]) (fun t => t.fl == 0x01#8 && t.pc == 3#9) = true := by decide

/-! ### Data transfer (95_test_vectors.md section 2.4) -/

/-- DT1, DT2. -/
theorem test_ldi :
    after (st [] 0xF4 0 0 [(0, 0x82), (1, 3), (2, 0xC4)]) (fun t => t.reg 3 == 0xC4#8 && t.pc == 3#9) = true ∧
      after (st [] 0xF4 0 0 [(0, 0x82), (1, 7), (2, 0x10)]) (fun t => t.reg 7 == 0x10#8) = true := by decide

/-- DT3, DT4. -/
theorem test_ld :
    after (st [0, 0x20] 0xF4 0 0 [(0, 0x83), (2, 1), (0x20, 0x7E)]) (fun t => t.reg 0 == 0x7E#8) = true ∧
      after (st [0x20] 0xF4 0 0 [(0, 0x83), (0x20, 0x55)]) (fun t => t.reg 0 == 0x55#8) = true := by decide

/-- DT5, DT6. -/
theorem test_st :
    after (st [0x7E, 0x20] 0xF4 0 0 [(0, 0x84), (2, 1)])
        (fun t => t.mem.read 0x20 == 0x7E#8 && t.reg 0 == 0x7E#8 && t.reg 1 == 0x20#8) = true ∧
      after (st [0, 0x30] 0xF4 0 0 [(0, 0x84), (1, 1), (2, 1)]) (fun t => t.mem.read 0x30 == 0x30#8) = true := by
  decide

/-- DT7: a store onto its own opcode byte. -/
theorem test_st_own_byte :
    after (st [1, 0] 0xF4 0 0 [(0, 0x84), (2, 1)]) (fun t => t.mem.read 0 == 0x01#8 && t.pc == 3#9) = true := by
  decide

/-- DT9: PUSH R7 pushes the decremented pointer. -/
theorem test_push_sp :
    after (st [] 0xF4 0 0 [(0, 0x45), (1, 7)]) (fun t => t.reg 7 == 0xF3#8 && t.mem.read 0xF3 == 0xF3#8) = true := by
  decide

/-- DT10, DT11. -/
theorem test_push_edge :
    after (st [0, 0, 0x99] 0x01 0 0x20 [(0x20, 0x45), (0x21, 2)])
        (fun t => t.reg 7 == 0x00#8 && t.mem.read 0 == 0x99#8) = true ∧
      faultsWith (st [] 0x00 0 0x20 [(0x20, 0x45), (0x21, 2)]) ⟨.outOfBoundsAccess, 0x20, .stackOverflow 0⟩ = true := by
  decide

/-- DT12, DT14. -/
theorem test_pop :
    after (st [] 0xF3 0 0 [(0, 0x46), (1, 1), (0xF3, 0x2A)]) (fun t => t.reg 1 == 0x2A#8 && t.reg 7 == 0xF4#8) = true ∧
      after (st [] 0xF3 0 0 [(0, 0x46), (1, 7), (0xF3, 0x50)]) (fun t => t.reg 7 == 0x51#8) = true := by decide

/-- DT15, DT16. -/
theorem test_pop_edge :
    faultsWith (st [] 0xF3 0 0 [(0, 0x46), (1, 7), (0xF3, 0xFF)])
        ⟨.outOfBoundsAccess, 0, .stackUnderflow 0xFF⟩ = true ∧
      faultsWith (st [] 0xFF 0 0 [(0, 0x46), (0xFF, 0x12)])
        ⟨.outOfBoundsAccess, 0, .stackUnderflow 0xFF⟩ = true := by decide

/-! ### Control transfer (95_test_vectors.md section 2.5) -/

/-- CT1, CT2: the target is read before the push. -/
theorem test_call :
    after (st [0, 0x40] 0xF4 0 0x10 [(0x10, 0x50), (0x11, 1)])
        (fun t => t.pc == 0x40#9 && t.reg 7 == 0xF3#8 && t.mem.read 0xF3 == 0x12#8) = true ∧
      after (st [] 0xF4 0 0x10 [(0x10, 0x50), (0x11, 7)])
        (fun t => t.pc == 0xF4#9 && t.reg 7 == 0xF3#8 && t.mem.read 0xF3 == 0x12#8) = true := by decide

/-- CT5, and the fault order vector: Unmodelled comes before the stack overflow. -/
theorem test_call_unmodelled :
    faultsWith (st [] 0xF4 0 0xFE [(0xFE, 0x50), (0xFF, 1)]) ⟨.unmodelled, 0xFE, .returnAddress 0x100⟩ = true ∧
      faultsWith (st [] 0x00 0 0xFE [(0xFE, 0x50), (0xFF, 1)]) ⟨.unmodelled, 0xFE, .returnAddress 0x100⟩ = true := by
  decide

/-- CT7, CT8. -/
theorem test_ret :
    after (st [] 0xF3 0 0 [(0, 0x11), (0xF3, 0x12)]) (fun t => t.pc == 0x12#9 && t.reg 7 == 0xF4#8) = true ∧
      faultsWith (st [] 0xFF 0 0 [(0, 0x11)]) ⟨.outOfBoundsAccess, 0, .stackUnderflow 0xFF⟩ = true := by decide

/-- CT12: the frame of the example of 60_exceptions.md R176. -/
theorem test_iret :
    after (st [9, 9, 9, 9, 9, 9, 0x10] 0xEB 0 0x20
        [(0x20, 0x13), (0xEC, 0x01), (0xF2, 0x01), (0xF3, 0x0C)])
      (fun t => t.reg 6 == 0#8 && t.reg 5 == 1#8 && t.reg 4 == 0#8 && t.reg 0 == 0#8 && t.fl == 1#8 &&
        t.pc == 0x0C#9 && t.reg 7 == 0xF4#8) = true := by decide

/-- CT13, CT14. -/
theorem test_iret_edge :
    after (st [] 0xF6 0 0x20 [(0x20, 0x13)]) (fun t => t.reg 7 == 0xFF#8) = true ∧
      faultsWith (st [] 0xF7 0 0x20 [(0x20, 0x13)]) ⟨.outOfBoundsAccess, 0x20, .stackUnderflow 0xFF⟩ = true := by
  decide

/-- CT10. -/
theorem test_jmp :
    after (st [0, 0, 0x30] 0xF4 0 0 [(0, 0x54), (1, 2)]) (fun t => t.pc == 0x30#9) = true := by decide

/-- The `pc` after the jump byte `op` at each FL of the conditional-jump table, in its order. -/
def jumpColumn (op : Byte) : List Bool :=
  [0x00#8, 0x01#8, 0x02#8, 0x04#8, 0x03#8, 0x05#8, 0x06#8, 0x07#8, 0xF8#8].map fun fl =>
    after (jump op fl) (fun t => t.pc == 0x40#9)

theorem test_jeq : jumpColumn 0x55 =
    [false, true, false, false, true, true, false, true, false] := by decide

theorem test_jne : jumpColumn 0x56 =
    [true, false, true, true, false, false, true, false, true] := by decide

theorem test_jgt : jumpColumn 0x57 =
    [false, false, true, false, true, false, true, true, false] := by decide

theorem test_jge : jumpColumn 0x5A =
    [false, true, true, false, true, true, true, true, false] := by decide

theorem test_jlt : jumpColumn 0x58 =
    [false, false, false, true, false, true, true, true, false] := by decide

theorem test_jle : jumpColumn 0x59 =
    [false, true, false, true, true, true, true, true, false] := by decide

/-- A conditional jump that is not taken falls through to A + 2. -/
theorem test_jump_falls_through : after (jump 0x55 0) (fun t => t.pc == 0x12#9) = true := by decide

/-! ### Output and system (95_test_vectors.md section 2.6) -/

/-- SY2. -/
theorem test_prn :
    after (st [0xFF] 0xF4 0 0 [(0, 0x47)]) (fun t => t.console == [.number 0xFF#8] && t.pc == 2#9) = true := by decide

/-- SY3. -/
theorem test_pra :
    after (st [0, 0x41] 0xF4 0 0 [(0, 0x48), (1, 1)]) (fun t => t.console == [.char 0x41#8]) = true := by decide

/-- SY5. -/
theorem test_nop : after (st [] 0xF4 0 5 []) (fun t => t.pc == 6#9 && t.state == .running) = true := by decide

/-- SY6, CU2. -/
theorem test_hlt :
    after (st [] 0xF4 0 5 [(5, 1)]) (fun t => t.pc == 6#9 && t.state == .halted) = true ∧
      after (st [] 0xF4 0 0xFF [(0xFF, 1)]) (fun t => t.pc == 0x100#9 && t.state == .halted) = true := by decide

/-! ### Interrupts (95_test_vectors.md section 2.7) -/

/-- IN1: a tick under a clear mask only sets R6 bit 0. -/
theorem test_tick_masked :
    after { st [] 0xF4 0 0 [] with tick := true } (fun t => t.reg 6 == 0x01#8 && t.pc == 1#9) = true := by decide

/-- IN2: a tick with line 0 enabled enters line 0; the handler at 0xF8 is NOP. -/
theorem test_tick_enters :
    after { st [0, 0, 0, 0, 0, 1] 0xF4 0 0x20 [] with tick := true }
      (fun t => t.reg 6 == 0#8 && t.reg 5 == 0#8 && t.pc == 0xF9#9 && t.reg 7 == 0xEB#8 &&
        t.mem.read 0xF3 == 0x20#8 && t.mem.read 0xEC == 1#8) = true := by decide

/-- IN4: line 2 before line 7. -/
theorem test_lowest_line :
    after (st [0, 0, 0, 0, 0, 0xFF, 0x84] 0xF4 0 0x20 [])
      (fun t => t.reg 6 == 0x80#8 && t.mem.read 0xEB == 0x80#8 && t.pc == 0xFB#9) = true := by decide

/-- IN6: line 7, whose one-byte handler at 0xFF is IRET. -/
theorem test_line_seven :
    after (st [0, 0, 0, 0, 0, 0x80, 0x80] 0xF4 0 0x20 [(0xFF, 0x13)])
      (fun t => t.pc == 0x20#9 && t.reg 5 == 0x80#8 && t.reg 6 == 0#8 && t.reg 7 == 0xF4#8) = true := by decide

/-- IN7: the stack runs out in the entry. -/
theorem test_entry_overflow :
    faultsWith (st [0, 0, 0, 0, 0, 1, 1] 0x05 0 0x20 []) ⟨.outOfBoundsAccess, 0x20, .stackOverflow 0⟩ = true := by
  decide

/-- IN8: an entry at `pc` 0x100. -/
theorem test_entry_unmodelled :
    faultsWith (st [0, 0, 0, 0, 0, 1, 1] 0xF4 0 0x100 []) ⟨.unmodelled, 0x100, .pushedPc 0x100⟩ = true := by decide

/-! ### Reset (95_test_vectors.md section 2.8) -/

/-- RS1: an image of one byte. -/
theorem test_load :
    ((State.reset.loadImage [0x01#8]).map fun t => t.mem.read 0) = some 0x01#8 ∧
      ((State.reset.loadImage [0x01#8]).map fun t => t.mem.read 0xF5) = some 0x00#8 := by decide

/-- 70_reset_and_hazards.md R198: 257 bytes are the host's error. -/
theorem test_load_too_long : State.reset.loadImage (List.replicate 257 0x01#8) = none :=
  if_neg (by rw [List.length_replicate]; decide)

/-! ### Witnesses: the hypotheses of each obligation, met together -/

theorem witness_DecodeAcceptsOnlyEncodings :
    decode [0xA0#8, 0x09#8, 0x01#8, 0x47#8] = .ok (.add 9#8 1#8, [0x47#8]) := rfl

theorem witness_OpcodeBitsGiveDispatch :
    opInfo 0xAD#8 = some ⟨.shr, 2, true, false⟩ ∧ opInfo 0x00#8 = some ⟨.nop, 0, false, false⟩ ∧
      opcountField 0xC0#8 = 3 ∧ opcountField 0xFF#8 = 3 ∧ opcountField 0xBF#8 = 2 := by decide

theorem witness_StepRunsDecodedInstruction :
    ∃ s t i, s.state = .running ∧ intCheck s = .ok t ∧ InstrAt i t ∧ i = .add 0#8 1#8 ∧ t.pc = 0xFD#9 :=
  ⟨st [] 0xF4 0 0xFD [(0xFD, 0xA0), (0xFF, 1)], _, .add 0#8 1#8, rfl, rfl, ⟨by decide, by decide⟩, rfl, rfl⟩

theorem witness_CyclesRunExactlyInRunning :
    State.reset.state = .running ∧ (State.reset.enterFaulted ⟨.unknownOpcode, 0, .opcode 0xFF⟩).state = .faulted ∧
      ∃ t, exec .hlt State.reset = .next t ∧ t.state = .halted := ⟨rfl, rfl, _, rfl, rfl⟩

theorem witness_UnknownOpcodeFaults :
    ∃ s t, s.state = .running ∧ intCheck s = .ok t ∧ t.pc.toNat ≤ 0xFF ∧
      ∀ m : Mnemonic, m.opcode ≠ t.mem.read t.pc.toNat :=
  ⟨st [] 0xF4 0 0xFF [(0xFF, 0x85)], _, rfl, rfl, by decide, fun m => by cases m <;> decide⟩

theorem witness_FetchAboveMemoryFaults_opcode :
    ∃ s t, s.state = .running ∧ intCheck s = .ok t ∧ 0xFF < t.pc.toNat :=
  ⟨st [] 0xF4 0 0x100 [], _, rfl, rfl, by decide⟩

theorem witness_FetchAboveMemoryFaults_operand :
    ∃ (s t : State) (m : Mnemonic), s.state = .running ∧ intCheck s = .ok t ∧ t.pc.toNat ≤ 0xFF ∧
      m.opcode = t.mem.read t.pc.toNat ∧ 0xFF < t.pc.toNat + m.format.operandCount :=
  ⟨st [] 0xF4 0 0xFE [(0xFE, 0x82)], _, .ldi, rfl, rfl, by decide, by decide, by decide⟩

theorem witness_RegisterIndexAboveSevenFaults :
    (Instr.add 7#8 8#8).regOperands.find? (fun c => decide (7 < c.toNat)) = some 8#8 ∧
      (Instr.div 9#8 8#8).regOperands.find? (fun c => decide (7 < c.toNat)) = some 9#8 := by decide

theorem witness_StepKeepsInv : ∃ s t, Inv s ∧ step s = .next t ∧ t.pc = 0x100#9 :=
  ⟨st [] 0xF4 0 0xFF [], _, ⟨by decide, by decide, by decide⟩, rfl, rfl⟩

theorem witness_LoadPlacesImage :
    State.reset.mem.wf = true ∧ (List.replicate 256 0x01#8).length ≤ 256 :=
  ⟨rfl, by rw [List.length_replicate]⟩

theorem witness_OnlyCmpAndIretChangeFlags : ∃ s t, step s = .next t ∧ t.state ≠ .faulted ∧ t.fl ≠ s.fl :=
  ⟨alu 0xA7 1 1, _, rfl, by decide, by decide⟩

theorem witness_OnlyHltHalts : ∃ s t, step s = .next t ∧ t.state = .halted :=
  ⟨st [] 0xF4 0 0xFF [(0xFF, 1)], _, rfl, rfl⟩

theorem witness_ConsoleIsAppendOnly : ∃ s t, step s = .next t ∧ t.console ≠ s.console :=
  ⟨st [] 0xF4 0 0 [(0, 0x47)], _, rfl, by decide⟩

theorem witness_PcAdvancesByLength :
    ∃ s t, (Instr.ldi 0#8 7#8).mnemonic.setsPc = false ∧ exec (.ldi 0#8 7#8) s = .next t ∧ t.state ≠ .faulted :=
  ⟨st [] 0xF4 0 0x20 [], _, rfl, rfl, by decide⟩

theorem witness_FatalErrorIsObserved : ∃ s t, s.state = .running ∧ step s = .next t ∧ t.state = .faulted :=
  ⟨st [] 0xF4 0 0 [(0, 0xFF)], _, rfl, rfl, rfl⟩

theorem witness_DivModGiveQuotientAndRemainder : (st [100, 7] 0xF4 0 0 []).reg 1 ≠ 0x00#8 := by decide

theorem witness_DivisionByZeroFaults : (st [100, 0] 0xF4 0 0 []).reg 1 = 0x00#8 := by decide

theorem witness_ShiftsUseWholeCount :
    8 ≤ ((st [1, 8] 0xF4 0 0 []).reg 1).toNat ∧ ¬ 8 ≤ ((st [1, 7] 0xF4 0 0 []).reg 1).toNat := by decide

theorem witness_CompareThenJump : ∃ s t, exec (.cmp (regByte 0) (regByte 1)) s = .next t :=
  ⟨st [0x80, 0x7F] 0xF4 0 0 [], _, rfl⟩

theorem witness_StoreWritesCell : (st [1, 0xFF] 0xF4 0 0 []).mem.wf = true := by decide

theorem witness_PushWritesBelowSp :
    ((st [] 0x01 0 0 []).mem.wf = true ∧ ((st [] 0x01 0 0 []).reg 7).toNat = 0 + 1) ∧
      (st [] 0xFF 0 0 []).mem.wf = true ∧ ((st [] 0xFF 0 0 []).reg 7).toNat = 0xFE + 1 := by decide

theorem witness_PopReadsAtSp :
    (if (0 : Reg) = 7 then (st [] 0xFE 0 0 []).mem.read 0xFE else (st [] 0xFE 0 0 []).reg 7) ≠ 0xFF#8 ∧
      (if (7 : Reg) = 7 then (st [] 0xFF 0 0 [(0xFF, 0xFE)]).mem.read 0xFF
        else (st [] 0xFF 0 0 [(0xFF, 0xFE)]).reg 7) ≠ 0xFF#8 := by decide

theorem witness_StackEdgesFault :
    ((st [] 0x00 0 0xFD []).reg 7 = 0x00#8 ∧ (st [] 0x00 0 0xFD []).pc.toNat + 2 ≤ 0xFF) ∧
      (st [] 0xFF 0 0 []).reg 7 = 0xFF#8 ∧
      (st [] 0xF3 0 0 [(0xF3, 0xFF)]).mem.read ((st [] 0xF3 0 0 [(0xF3, 0xFF)]).reg 7).toNat = 0xFF#8 := by decide

theorem witness_PushPopRoundTrip :
    (st [] 0x01 0 0 []).mem.wf = true ∧ ((st [] 0x01 0 0 []).reg 7).toNat = 0 + 1 := by decide

theorem witness_StoredHltIsFetchedNext :
    let s := st [1, 3] 0xF4 0 0 []
    s.mem.wf = true ∧ s.state = .running ∧ s.tick = false ∧ s.reg 5 = 0x00#8 ∧ s.reg 0 = 0x01#8 ∧
      (s.reg 1).toNat = s.pc.toNat + 3 := by decide

theorem witness_CallPushesReturnAddress :
    let s := st [] 0x01 0 0xFD []
    s.mem.wf = true ∧ s.pc.toNat + 2 ≤ 0xFF ∧ (s.reg 7).toNat = 0 + 1 ∧ 0 ≠ 0xF5 := by decide

theorem witness_CallAtLastAddressIsUnmodelled : (st [] 0x00 0 0xFE []).pc = 0xFE#9 := by decide

theorem witness_RetPopsReturnAddress :
    ((st [] 0xFE 0 0 []).mem.wf = true ∧ (st [] 0xFE 0 0 []).reg 7 ≠ 0xFF#8 ∧ (st [] 0xFE 0 0 []).reg 7 ≠ 0xF5#8) ∧
      (st [] 0xF5 0 0 []).reg 7 ≠ 0xFF#8 := by decide

theorem witness_CallReturnResumes :
    let s := st [0, 0x40] 0xF4 0 0xFD []
    s.mem.wf = true ∧ s.pc.toNat + 2 ≤ 0xFF ∧ (s.reg 7).toNat = 0xF3 + 1 ∧ 0xF3 ≠ 0xF5 := by decide

theorem witness_IretPopsNineBytes : ((st [] 0xF6 0 0 []).reg 7).toNat ≤ 0xF6 := by decide

theorem witness_IretUnderflowFaults : 0xF6 < ((st [] 0xF7 0 0 []).reg 7).toNat := by decide

theorem witness_TimerSetsStatusBitZero :
    { st [0, 0, 0, 0, 0, 0, 0xFE] 0xF4 0 0 [] with tick := true }.tick = true ∧
      (({ st [0, 0, 0, 0, 0, 0, 0xFF] 0xF4 0 0 [] with tick := true } : State).reg 6).getLsbD 0 = true ∧
      (st [] 0xF4 0 0 []).tick = false := by decide

theorem witness_LowestPendingLineIsTaken :
    let u := timerStep (st [0, 0, 0, 0, 0, 0xFF, 0x84] 0xF4 0 0 [])
    let v := timerStep (st [0, 0, 0, 0, 0, 0x03, 0x04] 0xF4 0 0 [])
    ((u.reg 5 &&& u.reg 6).getLsbD (2 : Fin 8).val = true ∧
      ∀ j : Fin 8, j < 2 → (u.reg 5 &&& u.reg 6).getLsbD j.val = false) ∧
      v.reg 5 &&& v.reg 6 = 0x00#8 ∧ (timerStep (st [] 0xF4 0 0 [])).reg 6 = 0x00#8 := by decide

theorem witness_InterruptEntrySavesContext :
    let s := st [0, 0, 0, 0, 0, 1, 1] 0x09 0 0xFF []
    let u := st [0, 0, 0, 0, 0, 1, 1] 0xFF 0 0xFF []
    (s.mem.wf = true ∧ s.pc.toNat ≤ 0xFF ∧ (s.reg 7).toNat = 0 + 9) ∧
      u.mem.wf = true ∧ u.pc.toNat ≤ 0xFF ∧ (u.reg 7).toNat = 0xF6 + 9 := by decide

theorem witness_InterruptEntryOverflowFaults :
    let s := st [0, 0, 0, 0, 0, 1, 1] 0x08 0 0xFF []
    s.state = .running ∧ lineTaken (timerStep s) = some 0 ∧ s.pc.toNat ≤ 0xFF ∧ (s.reg 7).toNat < 9 := by decide

theorem witness_InterruptAboveMemoryIsUnmodelled :
    let s := st [0, 0, 0, 0, 0, 0x80, 0x80] 0x00 0 0x100 []
    s.state = .running ∧ lineTaken (timerStep s) = some 7 ∧ 0xFF < s.pc.toNat := by decide

theorem witness_NoNestingAfterEntry :
    ∃ s t u : State, interruptEntry 0 s = .ok t ∧ u.reg 5 = t.reg 5 ∧ u.tick = true :=
  ⟨st [0, 0, 0, 0, 0, 1, 1] 0xF4 0 0x20 [], _, { st [] 0xF4 0 0 [] with tick := true }, rfl, by decide, rfl⟩

theorem witness_HandlerRunsInSameCycle :
    ∃ s t, s.state = .running ∧ lineTaken (timerStep s) = some 7 ∧ interruptEntry 7 (timerStep s) = .ok t ∧
      0xF8 + (7 : Fin 8).val + Instr.iret.length ≤ 256 ∧
      ∀ k, k < Instr.iret.length → t.mem.read (0xF8 + (7 : Fin 8).val + k) = (encode .iret).getD k 0x00#8 :=
  ⟨st [0, 0, 0, 0, 0, 0x80, 0x80] 0xF4 0 0x20 [(0xFF, 0x13)], _, rfl, by decide, rfl, by decide, by decide⟩

theorem witness_IretUndoesInterruptEntry :
    (∃ s t, s.mem.wf = true ∧ interruptEntry 0 s = .ok t ∧ (s.reg 7).toNat = 0xEC + 9 ∧ 0xEC + 9 ≤ 0xF5) ∧
      ∃ s t, s.mem.wf = true ∧ interruptEntry 7 s = .ok t ∧ (s.reg 7).toNat = 0xF6 + 9 ∧ 0xF5 < 0xF6 :=
  ⟨⟨st [0, 0, 0, 0, 0, 1, 1] 0xF5 0 0x20 [], _, by decide, rfl, by decide, by decide⟩,
    st [0, 0, 0, 0, 0, 0x80, 0x80] 0xFF 0 0xFF [], _, by decide, rfl, by decide, by decide⟩

end Sys2Proof.Tests
end

section
/-!
The ALU (41_alu.md): what an instruction that writes one register leaves unchanged, the value of each ALU
operation as an unsigned number, and the statements O20, O21, O24 and O26.
-/
namespace Sys2Proof.Machine

/-! ### Instructions that write one register and advance -/

theorem frame_setReg_advance (s : State) (d : Reg) (v : Byte) (n : Nat) :
    Frame { regs := [d] } s ((s.setReg d v).advance n) where
  regs q hq := by
    have hdq : d ≠ q := by simpa [eq_comm] using hq
    simp [hdq]
  mem _ _ _ := rfl
  fl _ := rfl
  state _ := rfl
  console _ := rfl
  fault := rfl
  tick := rfl

/-- An instruction of `n + 1` bytes that puts `v` in register `d` and advances writes `d` and nothing else. -/
theorem writesReg_of_exec_eq {i : Instr} {s : State} {d : Reg} {v : Byte} {n : Nat}
    (he : exec i s = .next ((s.setReg d v).advance n)) (hl : i.length = n + 1) : WritesReg i s d v.toNat :=
  ⟨_, he, by simp, by simp [hl], frame_setReg_advance s d v n⟩

theorem alu1_regByte (f : Byte → Byte) (d : Reg) (s : State) :
    alu1 f (regByte d) s = .next ((s.setReg d (f (s.reg d))).advance 1) := by
  simp [alu1]

theorem alu2_regByte (f : Byte → Byte → Byte) (d r : Reg) (s : State) :
    alu2 f (regByte d) (regByte r) s = .next ((s.setReg d (f (s.reg d) (s.reg r))).advance 2) := by
  simp [alu2]

/-- A one-operand ALU instruction writes its operation's value (41_alu.md R103, R104). -/
theorem writesReg_of_exec_eq_alu1 {i : Instr} {s : State} {d : Reg} (f : Byte → Byte)
    (he : exec i s = alu1 f (regByte d) s) (hl : i.length = 2) : WritesReg i s d (f (s.reg d)).toNat :=
  writesReg_of_exec_eq (he.trans (alu1_regByte f d s)) hl

/-- A two-operand ALU instruction writes its operation's value (41_alu.md R90, R104). -/
theorem writesReg_of_exec_eq_alu2 {i : Instr} {s : State} {d r : Reg} (f : Byte → Byte → Byte)
    (he : exec i s = alu2 f (regByte d) (regByte r) s) (hl : i.length = 3) :
    WritesReg i s d (f (s.reg d) (s.reg r)).toNat :=
  writesReg_of_exec_eq (he.trans (alu2_regByte f d r s)) hl

/-! ### The values of the arithmetic operations -/

theorem aluAdd_toNat (a b : Byte) : (aluAdd a b).toNat = (a.toNat + b.toNat) % 256 :=
  BitVec.toNat_ofNat _ _

theorem aluSub_toNat (a b : Byte) : (aluSub a b).toNat = (a.toNat + 256 - b.toNat) % 256 := by
  have hb := b.isLt
  simp only [aluSub, BitVec.toNat_ofInt]
  omega

theorem aluMul_toNat (a b : Byte) : (aluMul a b).toNat = a.toNat * b.toNat % 256 :=
  BitVec.toNat_ofNat _ _

theorem aluInc_toNat (a : Byte) : (aluInc a).toNat = (a.toNat + 1) % 256 :=
  BitVec.toNat_ofNat _ _

theorem aluDec_toNat (a : Byte) : (aluDec a).toNat = (a.toNat + 255) % 256 := by
  simp only [aluDec, BitVec.toNat_ofInt]
  omega

theorem aluNot_toNat (a : Byte) : (aluNot a).toNat = 255 - a.toNat := by
  simp only [aluNot, BitVec.toNat_ofNat]
  omega

/-- Settles O20: each of the four puts its operation's value in the destination, and that value is the sum
or difference modulo 256. -/
theorem addSubIncDecWrap : Obligations.AddSubIncDecWrap := by
  intro d r s
  rw [← aluAdd_toNat, ← aluSub_toNat, ← aluInc_toNat, ← aluDec_toNat]
  exact ⟨writesReg_of_exec_eq_alu2 aluAdd rfl rfl, writesReg_of_exec_eq_alu2 aluSub rfl rfl,
    writesReg_of_exec_eq_alu1 aluInc rfl rfl, writesReg_of_exec_eq_alu1 aluDec rfl rfl⟩

/-- Settles O21: MUL puts the product modulo 256 in the destination. -/
theorem mulKeepsLowByte : Obligations.MulKeepsLowByte := by
  intro d r s
  rw [← aluMul_toNat]
  exact writesReg_of_exec_eq_alu2 aluMul rfl rfl

/-! ### The bitwise operations -/

/-- Settles O24: the bytes are those of the three operations, whose bits are the operands' bits combined, and
NOT subtracts from 255. -/
theorem bitwiseResults : Obligations.BitwiseResults := by
  intro d r s
  refine ⟨aluAnd (s.reg d) (s.reg r), aluOr (s.reg d) (s.reg r), aluXor (s.reg d) (s.reg r), ?_, ?_, ?_, ?_, ?_⟩
  · exact writesReg_of_exec_eq_alu2 aluAnd rfl rfl
  · exact writesReg_of_exec_eq_alu2 aluOr rfl rfl
  · exact writesReg_of_exec_eq_alu2 aluXor rfl rfl
  · intro k _
    exact ⟨BitVec.getLsbD_and, BitVec.getLsbD_or, BitVec.getLsbD_xor⟩
  · rw [← aluNot_toNat]
    exact writesReg_of_exec_eq_alu1 aluNot rfl rfl

/-! ### Compare -/

theorem frame_setFl_advance (s : State) (v : Byte) (n : Nat) :
    Frame { fl := true } s ((s.setFl v).advance n) where
  regs _ _ := rfl
  mem _ _ _ := rfl
  fl h := nomatch h
  state _ := rfl
  console _ := rfl
  fault := rfl
  tick := rfl

theorem execCmp_regByte (a b : Reg) (s : State) :
    execCmp (regByte a) (regByte b) s =
      .next ((s.setFl (compareFlags (s.reg a) (s.reg b))).advance 2) := by
  simp [execCmp]

theorem compareFlags_of_eq {a b : Byte} (h : a.toNat = b.toNat) : compareFlags a b = 0x01#8 :=
  if_pos h

theorem compareFlags_of_lt {a b : Byte} (h : a.toNat < b.toNat) : compareFlags a b = 0x04#8 := by
  simp [compareFlags, h.ne, h]

theorem compareFlags_of_gt {a b : Byte} (h : b.toNat < a.toNat) : compareFlags a b = 0x02#8 := by
  simp [compareFlags, h.ne', h.not_gt]

/-- The three tested bits of FL after a comparison, by the unsigned order (41_alu.md R99). -/
theorem flags_compareFlags (a b : Byte) :
    flagE (compareFlags a b) = decide (a.toNat = b.toNat) ∧
      flagG (compareFlags a b) = decide (b.toNat < a.toNat) ∧
      flagL (compareFlags a b) = decide (a.toNat < b.toNat) := by
  rcases lt_trichotomy a.toNat b.toNat with h | h | h
  · simp [compareFlags_of_lt h, flagE, flagG, flagL, h, h.ne, h.le]
  · simp [compareFlags_of_eq h, flagE, flagG, flagL, h]
  · simp [compareFlags_of_gt h, flagE, flagG, flagL, h, h.ne', h.le]

/-- Settles O26: CMP writes FL with the flags of the comparison and advances. -/
theorem cmpSetsExactlyOneFlag : Obligations.CmpSetsExactlyOneFlag := by
  intro a b s
  obtain ⟨hE, hG, hL⟩ := flags_compareFlags (s.reg a) (s.reg b)
  exact ⟨_, execCmp_regByte a b s, hE, hG, hL, rfl, frame_setFl_advance s _ 2⟩

end Sys2Proof.Machine
end

section
/-!
The control-transfer instructions: where the jumps go, and that they change `pc` alone (43_control_transfer.md).
-/
namespace Sys2Proof.Machine

/-! ### Jumps -/

theorem execJmp_regByte (d : Reg) (s : State) : execJmp (regByte d) s = .next (s.jumpTo (s.reg d)) := by
  simp [execJmp]

/-- A conditional jump with a valid register writes `pc` alone: the register's value when its condition holds
of FL, `A + 2` when it does not. -/
theorem jumpIf_regByte (cond : Byte → Bool) (d : Reg) (s : State) :
    jumpIf cond (regByte d) s =
      .next { s with pc := if cond s.fl then (s.reg d).zeroExtend 9 else s.pc + 2 } := by
  rw [jumpIf, withReg_regByte, settle_ok]
  cases cond s.fl with
  | true => rfl
  | false => rfl

/-- Settles O35: JMP goes to the register's value, and the six conditional jumps are `jumpIf` of the condition
that reads their own bits of FL. -/
theorem jumpsTestTheirFlagBits : Obligations.JumpsTestTheirFlagBits := by
  intro d s
  refine ⟨?jmp, ?jeq, ?jne, ?jgt, ?jge, ?jlt, ?jle⟩
  case jmp => exact execJmp_regByte d s
  case jeq => exact jumpIf_regByte condEq d s
  case jne => exact jumpIf_regByte condNe d s
  case jgt => exact jumpIf_regByte condGt d s
  case jge => exact jumpIf_regByte condGe d s
  case jlt => exact jumpIf_regByte condLt d s
  case jle => exact jumpIf_regByte condLe d s

end Sys2Proof.Machine
end

section
/-!
The interrupt check (60_exceptions.md sections 1 and 2): what the timer step changes, which line is taken, what
an entry leaves alone, and the entry that runs out of stack.
-/
namespace Sys2Proof.Machine

/-! ### The timer step -/

theorem timerStep_reg_other (s : State) {q : Reg} (h : q ≠ isReg) : (timerStep s).reg q = s.reg q := by
  simp [timerStep_reg, h]

theorem timerStep_status_of_tick {s : State} (h : s.tick = true) :
    (timerStep s).reg isReg = s.reg isReg ||| 0x01#8 := by
  simp [timerStep_reg, h]

theorem timerStep_status_of_no_tick {s : State} (h : s.tick = false) :
    (timerStep s).reg isReg = s.reg isReg := by
  simp [timerStep_reg, h]

theorem timerStep_mem_of_no_tick {s : State} (h : s.tick = false) : (timerStep s).mem = s.mem := by
  simp [timerStep, h]

theorem timerStep_read_other (s : State) {a : Nat} (h : a ≠ checkpointAddr) :
    (timerStep s).mem.read a = s.mem.read a := by
  simp [timerStep, Memory.read, h]

/-- Setting bit 0 of a byte in which it is set already changes nothing. -/
theorem or_one_of_getLsbD_zero {b : Byte} (h : b.getLsbD 0 = true) : b ||| 0x01#8 = b := by
  refine BitVec.eq_of_getLsbD_eq fun k _ => ?_
  by_cases hk : k = 0
  · simp [hk, h]
  · simp [hk]

/-- Settles O43: a tick or-s 1 into R6, which sets bit 0 alone; the rest is what the timer step leaves. -/
theorem timerSetsStatusBitZero : Obligations.TimerSetsStatusBitZero := by
  intro s
  refine ⟨fun tick => ?_, fun noTick => ?_, fun r => timerStep_reg_other s, fun a => timerStep_read_other s, rfl⟩
  · rw [timerStep_status_of_tick tick]
    exact ⟨by simp, fun k hk => by simp [hk.ne'], or_one_of_getLsbD_zero⟩
  · exact ⟨timerStep_status_of_no_tick noTick, fun a => by rw [timerStep_mem_of_no_tick noTick]⟩

/-! ### The line taken -/

theorem intCheck_of_lineTaken_none {s : State} (h : lineTaken (timerStep s) = none) :
    intCheck s = .ok (timerStep s) := by
  simp [intCheck, dispatchInterrupt, h]

theorem intCheck_of_lineTaken_some {s : State} {i : Fin 8} (h : lineTaken (timerStep s) = some i) :
    intCheck s = interruptEntry i (timerStep s) := by
  simp [intCheck, dispatchInterrupt, h]

/-- The lines in ascending order: the one at index `k` is line `k`. -/
theorem lines_eq_finRange : lines = List.finRange 8 := by decide

/-- With no line pending and enabled none is taken (60_exceptions.md R173). -/
theorem lineTaken_of_no_pending {s : State} (h : s.reg imReg &&& s.reg isReg = 0x00#8) :
    lineTaken s = none :=
  List.find?_eq_none.2 fun i _ => by simp [linePending_eq, h]

/-- A pending and enabled line with none below it is taken (60_exceptions.md R174). -/
theorem lineTaken_of_lowest {s : State} {i : Fin 8} (hi : linePending s i = true)
    (hlow : ∀ j, j < i → linePending s j = false) : lineTaken s = some i := by
  rw [lineTaken, lines_eq_finRange, List.find?_eq_some_iff_getElem]
  refine ⟨hi, i.val, by simp, by simp, fun j hj => ?_⟩
  simpa using hlow ⟨j, by omega⟩ hj

/-- Settles O44: the lines are searched in ascending order, so the first found is the lowest. -/
theorem lowestPendingLineIsTaken : Obligations.LowestPendingLineIsTaken := by
  intro s i
  refine ⟨fun h => ?_, fun h => ?_, fun hi hlow => ?_⟩
  · exact intCheck_of_lineTaken_none (lineTaken_of_status_zero h)
  · exact intCheck_of_lineTaken_none (lineTaken_of_no_pending h)
  · refine intCheck_of_lineTaken_some (lineTaken_of_lowest ?_ fun j hj => ?_)
    · rwa [linePending_eq]
    · rw [linePending_eq]
      exact hlow j hj

/-! ### What an entry leaves alone -/

theorem setReg_same (s : State) (r : Reg) (v : Byte) : SameButRegsMem s (s.setReg r v) :=
  ⟨rfl, rfl, rfl, rfl, rfl, rfl, rfl, id⟩

/-- An entry that succeeds pushes, which touches registers and memory only, and then clears the mask, draws the
scratch cell and goes to the vector (60_exceptions.md R177). -/
theorem interruptEntry_ok {i : Fin 8} {s t : State} (h : interruptEntry i s = .ok t) :
    ∃ u, SameButRegsMem s u ∧
      t = ((u.setReg imReg 0x00#8).drawScratch).jumpTo (BitVec.ofNat 8 (0xF8 + i.val)) := by
  simp only [interruptEntry] at h
  split at h
  · cases h
  · obtain ⟨a, ha, h⟩ := bind_eq_ok_iff.1 h
    obtain ⟨b, hb, h⟩ := bind_eq_ok_iff.1 h
    obtain ⟨u, hu, h⟩ := bind_eq_ok_iff.1 h
    cases h
    have hpush := (push_same ha).trans ((push_same hb).trans (pushRegs_same hu))
    exact ⟨u, (setReg_same s isReg _).trans hpush, rfl⟩

/-- The interrupt check emits nothing (60_exceptions.md R169). -/
theorem intCheck_console {s t : State} (h : intCheck s = .ok t) : t.console = s.console := by
  rcases intCheck_cases s with ⟨-, hc⟩ | ⟨i, -, hc⟩
  · cases hc.symm.trans h
    rfl
  · obtain ⟨u, hu, rfl⟩ := interruptEntry_ok (hc.symm.trans h)
    exact hu.console

/-! ### An entry that runs out of stack -/

/-- When what follows a push overflows from every SP below `n`, with the push it overflows from every SP below
`n + 1`: the push itself overflows, or SP is one lower after it. -/
theorem push_bind_overflow {α : Type} {v : Byte} {s : State} {f : State → Except FaultRecord α} {n : Nat}
    (hf : ∀ t, t.pc = s.pc → (t.reg spReg).toNat < n →
      f t = .error ⟨.outOfBoundsAccess, s.pc, .stackOverflow 0x00#8⟩)
    (h : (s.reg spReg).toNat < n + 1) :
    (push v s >>= f) = .error ⟨.outOfBoundsAccess, s.pc, .stackOverflow 0x00#8⟩ := by
  by_cases h0 : s.reg spReg = 0x00#8
  · exact bind_eq_error_iff.2 (.inl (push_error_iff.2 ⟨h0, rfl⟩))
  · have hp := toNat_pred h0
    refine bind_eq_error_iff.2 (.inr ⟨_, push_ok_iff.2 ⟨h0, rfl⟩, hf _ rfl ?_⟩)
    rw [store_reg, reg_setReg_same]
    omega

/-- Pushing more registers than SP has room for overflows. -/
theorem pushRegs_overflow {rs : List Reg} {s : State} (h : (s.reg spReg).toNat < rs.length) :
    pushRegs rs s = .error ⟨.outOfBoundsAccess, s.pc, .stackOverflow 0x00#8⟩ := by
  induction rs generalizing s with
  | nil => exact absurd h (Nat.not_lt_zero _)
  | cons r rs ih => exact push_bind_overflow (fun t hpc ht => hpc ▸ ih ht) h

/-- An entry with SP below 9 overflows, in whichever of its nine pushes finds SP at 0 (60_exceptions.md R180). -/
theorem interruptEntry_overflow {i : Fin 8} {s : State} (hpc : s.pc.toNat ≤ 0xFF)
    (hsp : (s.reg spReg).toNat < 9) :
    interruptEntry i s = .error ⟨.outOfBoundsAccess, s.pc, .stackOverflow 0x00#8⟩ := by
  have hsp' (v : Byte) : ((s.setReg isReg v).reg spReg).toNat < 9 := by
    rwa [reg_setReg_other s (by decide)]
  unfold interruptEntry
  rw [if_neg (by simpa using hpc)]
  refine push_bind_overflow (n := 8) (fun t ht hspt => ?_) (hsp' _)
  rw [← ht]
  refine push_bind_overflow (n := 7) (fun u hu hspu => ?_) hspt
  rw [← hu, pushRegs_overflow hspu, bind_error]

end Sys2Proof.Machine
end

section
/-!
Fatal errors of a cycle (60_exceptions.md section 1): what `step` answers when the interrupt check or the fetch
fails, and the causes UnknownOpcode, DivisionByZero and stack overflow in an interrupt entry.
-/
namespace Sys2Proof.Machine

/-! ### Where a cycle can fail before it executes -/

theorem faults_step_of_intCheck_error {s : State} {r : FaultRecord} (hs : s.state = .running)
    (h : intCheck s = .error r) : Faults (step s) r s.console := by
  simp only [step, hs, h]
  exact faults_settle s r

theorem faults_step_of_fetch_error {s t : State} {r : FaultRecord} (hs : s.state = .running)
    (hc : intCheck s = .ok t) (hf : fetch t = .error r) : Faults (step s) r s.console := by
  simp only [step, hs, hc, hf]
  rw [← intCheck_console hc]
  exact faults_settle t r

/-- Settles O46: the timer step keeps SP and `pc`, so the entry finds SP below 9 and overflows. -/
theorem interruptEntryOverflowFaults : Obligations.InterruptEntryOverflowFaults := by
  intro s i hs hline hpc hsp
  have hentry : interruptEntry i (timerStep s) = .error ⟨.outOfBoundsAccess, s.pc, .stackOverflow 0x00#8⟩ :=
    interruptEntry_overflow hpc (by rwa [timerStep_reg_other s (by decide)])
  exact faults_step_of_intCheck_error hs ((intCheck_of_lineTaken_some hline).trans hentry)

/-! ### UnknownOpcode -/

theorem decodeOpcode_of_forall_ne {op : Byte} (h : ∀ m : Mnemonic, m.opcode ≠ op) : decodeOpcode op = none :=
  List.find?_eq_none.2 fun m _ => by simpa using h m

/-- The byte decides, whatever bytes follow it or whether any do (30_encoding.md R63). -/
theorem decode_of_unknown_opcode {op : Byte} (h : decodeOpcode op = none) (rest : List Byte) :
    decode (op :: rest) = .error (.unknownOpcode op) := by
  simp [decode, h]

theorem window_succ {s : State} {a : Nat} (h : a ≤ 0xFF) (n : Nat) :
    window s a (n + 1) = s.mem.read a :: window s (a + 1) n :=
  if_neg (by omega)

theorem fetch_of_unknown_opcode {s : State} (hpc : s.pc.toNat ≤ 0xFF)
    (h : decodeOpcode (s.mem.read s.pc.toNat) = none) :
    fetch s = .error ⟨.unknownOpcode, s.pc, .opcode (s.mem.read s.pc.toNat)⟩ := by
  simp only [fetch, window_succ hpc, decode_of_unknown_opcode h, raise_eq]

/-- Settles O8: the fetch looks the opcode byte up before it needs an operand byte. -/
theorem unknownOpcodeFaults : Obligations.UnknownOpcodeFaults := by
  refine ⟨rfl, fun s t hs hc hpc hop => ?_⟩
  exact faults_step_of_fetch_error hs hc (fetch_of_unknown_opcode hpc (decodeOpcode_of_forall_ne hop))

/-! ### DivisionByZero -/

/-- A division by a register that holds 0 raises DivisionByZero with its opcode byte (60_exceptions.md R166). -/
theorem faults_aluDivide (op : Byte) (f : Byte → Byte → Byte) (d : Reg) {r : Reg} {s : State}
    (h : s.reg r = 0x00#8) :
    Faults (aluDivide op f (regByte d) (regByte r) s) ⟨.divisionByZero, s.pc, .opcode op⟩ s.console := by
  rw [aluDivide, withRegs_regByte, if_pos h]
  exact faults_settle s _

/-- Settles O23: DIV and MOD are the two divisions, each with its own opcode byte. -/
theorem divisionByZeroFaults : Obligations.DivisionByZeroFaults :=
  ⟨rfl, fun d _ _ h => ⟨faults_aluDivide 0xA3#8 aluDiv d h, faults_aluDivide 0xA4#8 aluMod d h⟩⟩

end Sys2Proof.Machine
end

section
/-!
The decoder and the fetch (30_encoding.md, 40_control_unit.md section 2): the encoding is read back and is the only
one, what the window over memory holds at `pc`, and the cycle that runs the instruction found there.
-/
namespace Sys2Proof

/-! ### The opcode table -/

@[simp] theorem decodeOpcode_opcode (m : Mnemonic) : decodeOpcode m.opcode = some m := by
  cases m <;> rfl

theorem opcode_of_decodeOpcode {op : Byte} {m : Mnemonic} (h : decodeOpcode op = some m) : m.opcode = op := by
  simpa using List.find?_some h

theorem operandCount_le_two (m : Mnemonic) : m.format.operandCount ≤ 2 := by
  cases m.format <;> decide

theorem isAlu_eq_field (m : Mnemonic) : m.isAlu = isAluField m.opcode := by
  cases m <;> rfl

theorem setsPc_eq_field (m : Mnemonic) : m.setsPc = setsPcField m.opcode := by
  cases m <;> rfl

/-- Settles O3: an opcode byte of the table is its mnemonic's, and the table's answers are that byte's fields;
with 3 in bits 7-6 there would be three operand bytes. -/
theorem opcodeBitsGiveDispatch : Obligations.OpcodeBitsGiveDispatch := by
  refine fun op => ⟨fun info h => ?_, fun h3 => ?_⟩
  · obtain ⟨m, hm, rfl⟩ := Option.map_eq_some_iff.1 h
    cases opcode_of_decodeOpcode hm
    exact ⟨rfl, (Laws.EncodedLength.opcountField_opcode m).symm, isAlu_eq_field m, setsPc_eq_field m⟩
  · cases hm : decodeOpcode op with
    | none => simp [opInfo, hm]
    | some m =>
      cases opcode_of_decodeOpcode hm
      have hle := operandCount_le_two m
      rw [Laws.EncodedLength.opcountField_opcode] at h3
      omega

/-! ### Operands -/

@[simp] theorem mnemonic_build (m : Mnemonic) (ra rb : Byte) : (m.build ra rb).mnemonic = m := by
  cases m <;> rfl

theorem operandBytes_build (m : Mnemonic) (ra rb : Byte) :
    (m.build ra rb).operandBytes = [ra, rb].take m.format.operandCount := by
  cases m <;> rfl

theorem decodeOperands_operandBytes (i : Instr) (rest : List Byte) :
    decodeOperands i.mnemonic (i.operandBytes ++ rest) = .ok (i, rest) := by
  cases i <;> rfl

/-- The operand bytes that are read are those of the instruction they make. -/
theorem decodeOperands_ok {m : Mnemonic} {bs : List Byte} {i : Instr} {rest : List Byte}
    (h : decodeOperands m bs = .ok (i, rest)) : i.mnemonic = m ∧ bs = i.operandBytes ++ rest := by
  unfold decodeOperands at h
  split at h
  · next hn =>
    cases h
    simp [operandBytes_build, hn]
  · next hn =>
    cases h
    simp [operandBytes_build, hn]
  · next h0 h1 =>
    have hn : m.format.operandCount = 2 := by
      have hle := operandCount_le_two m
      have hne0 : m.format.operandCount ≠ 0 := h0
      have hne1 : m.format.operandCount ≠ 1 := h1
      omega
    cases h
    simp [operandBytes_build, hn]
  · cases h
  · cases h

theorem decodeOperands_nil {m : Mnemonic} (h : m.format.operandCount ≠ 0) :
    decodeOperands m [] = .error (.missingOperand 1) := by
  simp [decodeOperands]

theorem decodeOperands_singleton {m : Mnemonic} (h : m.format.operandCount = 2) (b : Byte) :
    decodeOperands m [b] = .error (.missingOperand 2) := by
  simp [decodeOperands, h]

/-! ### Instructions -/

@[simp] theorem length_encode (i : Instr) : (encode i).length = i.length := by
  cases i <;> rfl

/-- Settles O1: the opcode byte is looked up in the table, and the operand bytes are read in order. -/
theorem decodeEncodeRoundTrip : Obligations.DecodeEncodeRoundTrip := by
  intro i rest
  simp only [encode, List.cons_append, decode, decodeOpcode_opcode]
  exact decodeOperands_operandBytes i rest

/-- Settles O2: the opcode byte is the one of the mnemonic found, and the operand bytes are the instruction's. -/
theorem decodeAcceptsOnlyEncodings : Obligations.DecodeAcceptsOnlyEncodings := by
  intro bs i rest h
  cases bs with
  | nil => cases h
  | cons op bs =>
    simp only [decode] at h
    split at h
    · cases h
    · next m hm =>
      obtain ⟨rfl, rfl⟩ := decodeOperands_ok h
      cases opcode_of_decodeOpcode hm
      rfl

/-- Settles O4: the six instructions are encoded as the words say, so the words decode to them. -/
theorem sampleWordsDecode : Obligations.SampleWordsDecode :=
  ⟨decodeEncodeRoundTrip .iret [], decodeEncodeRoundTrip (.jge 3#8) [], decodeEncodeRoundTrip (.not 2#8) [0x47#8],
    decodeEncodeRoundTrip (.ldi 0#8 0xFF#8) [], decodeEncodeRoundTrip (.st 1#8 2#8) [],
    decodeEncodeRoundTrip (.cmp 4#8 5#8) []⟩

end Sys2Proof

namespace Sys2Proof.Machine

/-! ### The window at `pc` -/

/-- Bytes that lie in memory from `a` on, and are no more than the window, begin the window. -/
theorem window_eq_append {s : State} {bs : List Byte} {a n : Nat} (hn : bs.length ≤ n) (ha : a + bs.length ≤ 256)
    (hread : ∀ k, k < bs.length → s.mem.read (a + k) = bs.getD k 0x00#8) : ∃ rest, window s a n = bs ++ rest := by
  induction bs generalizing a n with
  | nil => exact ⟨window s a n, rfl⟩
  | cons b bs ih =>
    simp only [List.length_cons] at hn ha hread
    obtain ⟨n, rfl⟩ : ∃ k, n = k + 1 := ⟨n - 1, by omega⟩
    obtain ⟨rest, hrest⟩ := ih (a := a + 1) (n := n) (by omega) (by omega) fun k hk => by
      have h := hread (k + 1) (by omega)
      rwa [List.getD_cons_succ, ← Nat.add_assoc, Nat.add_right_comm] at h
    have hb : s.mem.read a = b := hread 0 (by omega)
    exact ⟨rest, by rw [window_succ (by omega), hrest, hb, List.cons_append]⟩

theorem window_above_memory {s : State} {a : Nat} (h : 0xFF < a) (n : Nat) : window s a n = [] := by
  cases n with
  | zero => rfl
  | succ n => exact if_pos h

theorem length_le_three (i : Instr) : i.length ≤ 3 :=
  Nat.succ_le_succ (operandCount_le_two i.mnemonic)

theorem fetch_of_instrAt {i : Instr} {s : State} (h : InstrAt i s) : fetch s = .ok i := by
  obtain ⟨hmem, hread⟩ := h
  rw [← length_encode] at hmem hread
  obtain ⟨rest, hrest⟩ := window_eq_append (n := 3) (by simpa using length_le_three i) hmem hread
  simp only [fetch, hrest, decodeEncodeRoundTrip i rest]

theorem step_of_fetch_ok {s t : State} {i : Instr} (hs : s.state = .running) (hc : intCheck s = .ok t)
    (hf : fetch t = .ok i) : step s = exec i t := by
  simp only [step, hs, hc, hf]

/-- Settles O5: the fetch finds the instruction whose bytes lie at `pc`. -/
theorem stepRunsDecodedInstruction : Obligations.StepRunsDecodedInstruction :=
  fun _ _ _ hs hc hi => step_of_fetch_ok hs hc (fetch_of_instrAt hi)

/-! ### A fetch above memory -/

theorem fetch_above_memory {s : State} (h : 0xFF < s.pc.toNat) :
    fetch s = .error ⟨.outOfBoundsAccess, s.pc, .fetchAddress s.pc⟩ := by
  simp only [fetch, window_above_memory h, decode, raise_eq]

theorem fetch_of_missingOperand {s : State} {m : Mnemonic} {k : Nat} (hpc : s.pc.toNat ≤ 0xFF)
    (hop : m.opcode = s.mem.read s.pc.toNat)
    (h : decodeOperands m (window s (s.pc.toNat + 1) 2) = .error (.missingOperand k)) :
    fetch s = .error ⟨.outOfBoundsAccess, s.pc, .fetchAddress (s.pc + BitVec.ofNat 9 k)⟩ := by
  simp only [fetch, window_succ hpc, ← hop, decode, decodeOpcode_opcode, h, raise_eq]

/-- The operand byte that lies above memory is the first one missing, and its address is 0x100: byte 1 of an
instruction at 0xFF, byte 2 of one at 0xFE. -/
theorem fetch_operand_above_memory {s : State} {m : Mnemonic} (hpc : s.pc.toNat ≤ 0xFF)
    (hop : m.opcode = s.mem.read s.pc.toNat) (hn : 0xFF < s.pc.toNat + m.format.operandCount) :
    fetch s = .error ⟨.outOfBoundsAccess, s.pc, .fetchAddress 0x100#9⟩ := by
  have hle := operandCount_le_two m
  by_cases hlast : s.pc.toNat = 0xFF
  · have haddr : s.pc + BitVec.ofNat 9 1 = 0x100#9 := by bv_omega
    rw [← haddr]
    refine fetch_of_missingOperand hpc hop ?_
    rw [window_above_memory (by omega), decodeOperands_nil (by omega)]
  · have haddr : s.pc + BitVec.ofNat 9 2 = 0x100#9 := by bv_omega
    rw [← haddr]
    refine fetch_of_missingOperand hpc hop ?_
    rw [window_succ (by omega), window_above_memory (by omega), decodeOperands_singleton (by omega)]

/-- Settles O9: the window is empty above memory, and ends at 0xFF before the operand byte that is missing. -/
theorem fetchAboveMemoryFaults : Obligations.FetchAboveMemoryFaults := by
  refine fun s t hs hc => ⟨fun hpc => ?_, fun m hpc hop hn => ?_⟩
  · exact faults_step_of_fetch_error hs hc (fetch_above_memory hpc)
  · exact faults_step_of_fetch_error hs hc (fetch_operand_above_memory hpc hop hn)

end Sys2Proof.Machine
end

section
/-!
What every instruction and every cycle can do (40_control_unit.md section 1): an instruction completes or raises a
fatal error, `Completes` says what completing may change, and the statements about all instructions and all cycles
are read off it.
-/
namespace Sys2Proof.Machine

/-! ### What operations keep of the control state -/

/-- FL, the run state, the fault record and the console are in `t` as in `s`, and memory stays in canonical form. -/
structure SameControl (s t : State) : Prop where
  fl : t.fl = s.fl
  state : t.state = s.state
  fault : t.fault = s.fault
  console : t.console = s.console
  wf : s.mem.wf = true → t.mem.wf = true

theorem SameControl.trans {s t u : State} (h : SameControl s t) (h' : SameControl t u) : SameControl s u :=
  ⟨h'.fl.trans h.fl, h'.state.trans h.state, h'.fault.trans h.fault, h'.console.trans h.console,
    fun w => h'.wf (h.wf w)⟩

theorem SameButRegsMem.sameControl {s t : State} (h : SameButRegsMem s t) : SameControl s t :=
  ⟨h.fl, h.state, h.fault, h.console, h.wf⟩

theorem drawScratch_sameControl (s : State) : SameControl s s.drawScratch :=
  ⟨rfl, rfl, rfl, rfl, drawScratch_wf⟩

theorem timerStep_sameControl (s : State) : SameControl s (timerStep s) :=
  ⟨rfl, rfl, rfl, rfl, fun w => w⟩

theorem store_same (s : State) (a v : Byte) : SameButRegsMem s (s.store a v) :=
  ⟨rfl, rfl, rfl, rfl, rfl, rfl, rfl, fun w => write_byte_wf w a v⟩

theorem spDec_same {s t : State} (h : spDec s = .ok t) : SameButRegsMem s t := by
  obtain ⟨-, rfl⟩ := spDec_ok_iff.1 h
  exact setReg_same s _ _

theorem spInc_same {s t : State} (h : spInc s = .ok t) : SameButRegsMem s t := by
  obtain ⟨-, rfl⟩ := spInc_ok_iff.1 h
  exact setReg_same s _ _

/-- The interrupt check keeps the control state, whether or not it enters a handler. -/
theorem intCheck_sameControl {s t : State} (h : intCheck s = .ok t) : SameControl s t := by
  rcases intCheck_cases s with ⟨-, hc⟩ | ⟨i, -, hc⟩
  · cases hc.symm.trans h
    exact timerStep_sameControl s
  · obtain ⟨u, hu, rfl⟩ := interruptEntry_ok (hc.symm.trans h)
    have hmask := (setReg_same u imReg 0x00#8).sameControl.trans (drawScratch_sameControl _)
    have hentry : SameControl s _ := (timerStep_sameControl s).trans (hu.sameControl.trans hmask)
    exact ⟨hentry.fl, hentry.state, hentry.fault, hentry.console, hentry.wf⟩

/-! ### Which errors the operations raise -/

theorem pushRegs_error {rs : List Reg} {s : State} {r : FaultRecord} (h : pushRegs rs s = .error r) :
    r = ⟨.outOfBoundsAccess, s.pc, .stackOverflow 0x00#8⟩ := by
  induction rs generalizing s with
  | nil => cases h
  | cons q rs ih =>
    rcases bind_eq_error_iff.1 h with h | ⟨t, ht, h⟩
    · exact (push_error_iff.1 h).2
    · rw [← (push_same ht).pc]
      exact ih h

theorem popRegs_error {rs : List Reg} {s : State} {r : FaultRecord} (h : popRegs rs s = .error r) :
    r = ⟨.outOfBoundsAccess, s.pc, .stackUnderflow 0xFF#8⟩ := by
  induction rs generalizing s with
  | nil => cases h
  | cons q rs ih =>
    rcases bind_eq_error_iff.1 h with h | ⟨⟨v, t⟩, ht, h⟩
    · exact (pop_error_iff.1 h).2
    · rw [← (pop_same ht).pc]
      exact ih (s := t.setReg q v) h

theorem interruptEntry_error {i : Fin 8} {s : State} {r : FaultRecord} (h : interruptEntry i s = .error r) :
    r = ⟨.outOfBoundsAccess, s.pc, .stackOverflow 0x00#8⟩ ∨ r = ⟨.unmodelled, s.pc, .pushedPc s.pc⟩ := by
  simp only [interruptEntry] at h
  split at h
  · cases h
    exact .inr rfl
  · refine .inl ?_
    rcases bind_eq_error_iff.1 h with h | ⟨a, ha, h⟩
    · exact (push_error_iff.1 h).2
    rcases bind_eq_error_iff.1 h with h | ⟨b, hb, h⟩
    · rw [(push_error_iff.1 h).2, (push_same ha).pc, setReg_pc]
    rcases bind_eq_error_iff.1 h with h | ⟨c, -, h⟩
    · rw [pushRegs_error h, (push_same hb).pc, (push_same ha).pc, setReg_pc]
    · cases h

/-- The pops of IRET, one after the other, when all succeed. -/
theorem interruptReturn_ok {s t : State} (h : interruptReturn s = .ok t) :
    ∃ a f b p c, popRegs [6, 5, 4, 3, 2, 1, 0] s = .ok a ∧ pop a = .ok (f, b) ∧ pop (b.setFl f) = .ok (p, c) ∧
      t = c.jumpTo p := by
  obtain ⟨a, ha, h⟩ := bind_eq_ok_iff.1 h
  obtain ⟨⟨f, b⟩, hb, h⟩ := bind_eq_ok_iff.1 h
  obtain ⟨⟨p, c⟩, hc, h⟩ := bind_eq_ok_iff.1 h
  cases h
  exact ⟨a, f, b, p, c, ha, hb, hc, rfl⟩

theorem interruptReturn_error {s : State} {r : FaultRecord} (h : interruptReturn s = .error r) :
    r = ⟨.outOfBoundsAccess, s.pc, .stackUnderflow 0xFF#8⟩ := by
  rcases bind_eq_error_iff.1 h with h | ⟨a, ha, h⟩
  · exact popRegs_error h
  rcases bind_eq_error_iff.1 h with h | ⟨⟨f, b⟩, hb, h⟩
  · rw [(pop_error_iff.1 h).2, (popRegs_same ha).pc]
  rcases bind_eq_error_iff.1 h with h | ⟨⟨p, c⟩, -, h⟩
  · rw [(pop_error_iff.1 h).2, setFl_pc, (pop_same hb).pc, (popRegs_same ha).pc]
  · cases h

/-- The record is of another kind than UnsupportedAluOp, which no row of the table can raise (30_encoding.md R65). -/
def NotUnsupportedAluOp (r : FaultRecord) : Prop := r.kind ≠ .unsupportedAluOp

theorem intCheck_error_kind {s : State} {r : FaultRecord} (h : intCheck s = .error r) : NotUnsupportedAluOp r := by
  rcases intCheck_cases s with ⟨-, hc⟩ | ⟨i, -, hc⟩
  · cases hc.symm.trans h
  · rcases interruptEntry_error (hc.symm.trans h) with rfl | rfl <;> exact nofun

theorem fetch_error_kind {s : State} {r : FaultRecord} (h : fetch s = .error r) : NotUnsupportedAluOp r := by
  unfold fetch at h
  split at h <;> cases h <;> exact nofun

theorem regOperand_error_kind {s : State} {b : Byte} {r : FaultRecord} (h : regOperand s b = .error r) :
    NotUnsupportedAluOp r := by
  obtain ⟨-, rfl⟩ := regOperand_error_iff.1 h
  exact nofun

theorem spDec_error_kind {s : State} {r : FaultRecord} (h : spDec s = .error r) : NotUnsupportedAluOp r := by
  obtain ⟨-, rfl⟩ := spDec_error_iff.1 h
  exact nofun

theorem spInc_error_kind {s : State} {r : FaultRecord} (h : spInc s = .error r) : NotUnsupportedAluOp r := by
  obtain ⟨-, rfl⟩ := spInc_error_iff.1 h
  exact nofun

theorem push_error_kind {v : Byte} {s : State} {r : FaultRecord} (h : push v s = .error r) :
    NotUnsupportedAluOp r := by
  obtain ⟨-, rfl⟩ := push_error_iff.1 h
  exact nofun

theorem pop_error_kind {s : State} {r : FaultRecord} (h : pop s = .error r) : NotUnsupportedAluOp r := by
  obtain ⟨-, rfl⟩ := pop_error_iff.1 h
  exact nofun

/-! ### What an instruction that completes may change -/

/-- What instruction `i` may have changed of the state `s` it completed in, beside registers and memory. -/
structure Completes (i : Instr) (s t : State) : Prop where
  fl : t.fl = s.fl ∨ i.mnemonic = .cmp ∨ i.mnemonic = .iret
  state : t.state = s.state ∨ (i = .hlt ∧ t.state = .halted)
  fault : t.fault = s.fault
  console : t.console = s.console ∨
    ((i.mnemonic = .prn ∨ i.mnemonic = .pra) ∧ ∃ e, t.console = s.console ++ [e])
  pc : t.pc = s.pc + BitVec.ofNat 9 i.length ∨ (i.mnemonic.setsPc = true ∧ t.pc.toNat ≤ 0xFF)
  wf : s.mem.wf = true → t.mem.wf = true

theorem SameButRegsMem.completes_advance {i : Instr} {s t : State} {n : Nat} (h : SameButRegsMem s t)
    (hl : i.length = n + 1) : Completes i s (t.advance n) where
  fl := .inl h.fl
  state := .inl h.state
  fault := h.fault
  console := .inl h.console
  pc := .inl (by rw [advance_pc, h.pc, hl])
  wf := h.wf

@[simp] theorem jumpTo_pc_toNat (s : State) (v : Byte) : (s.jumpTo v).pc.toNat = v.toNat := by
  have := v.isLt
  simp only [jumpTo_pc, BitVec.truncate_eq_setWidth, BitVec.toNat_setWidth]
  omega

theorem jumpTo_pc_le (s : State) (v : Byte) : (s.jumpTo v).pc.toNat ≤ 0xFF := by
  have := v.isLt
  rw [jumpTo_pc_toNat]
  omega

theorem SameControl.completes_jumpTo {i : Instr} {s t : State} (h : SameControl s t)
    (hj : i.mnemonic.setsPc = true) (v : Byte) : Completes i s (t.jumpTo v) where
  fl := .inl h.fl
  state := .inl h.state
  fault := h.fault
  console := .inl h.console
  pc := .inr ⟨hj, jumpTo_pc_le t v⟩
  wf := h.wf

/-- A computed result: the instruction completes, or raises an error of a kind that can occur. -/
def Answers (i : Instr) (s : State) : Except FaultRecord State → Prop
  | .ok t => Completes i s t
  | .error r => NotUnsupportedAluOp r

theorem Answers.bind {i : Instr} {s : State} {α : Type} {x : Except FaultRecord α}
    {f : α → Except FaultRecord State} (herr : ∀ {r}, x = .error r → NotUnsupportedAluOp r)
    (hok : ∀ a, x = .ok a → Answers i s (f a)) : Answers i s (x >>= f) := by
  cases x with
  | error r => exact herr rfl
  | ok a => exact hok a rfl

/-- The outcome is a computed result of `i`, settled. -/
def EndsBy (i : Instr) (s : State) (o : Host.Outcome State Fault Refusal) : Prop :=
  ∃ x, o = settle s x ∧ Answers i s x

theorem endsBy_next {i : Instr} {s t : State} (h : Completes i s t) : EndsBy i s (.next t) :=
  ⟨.ok t, rfl, h⟩

theorem endsBy_withReg {i : Instr} {s : State} {body : Reg → Except FaultRecord State} (ra : Byte)
    (h : ∀ a, Answers i s (body a)) : EndsBy i s (withReg ra s body) :=
  ⟨_, rfl, .bind regOperand_error_kind fun a _ => h a⟩

theorem endsBy_withRegs {i : Instr} {s : State} {body : Reg → Reg → Except FaultRecord State} (ra rb : Byte)
    (h : ∀ a b, Answers i s (body a b)) : EndsBy i s (withRegs ra rb s body) :=
  ⟨_, rfl, .bind regOperand_error_kind fun a _ => .bind regOperand_error_kind fun b _ => h a b⟩

/-! ### Family by family -/

theorem endsBy_alu1 {i : Instr} (hl : i.length = 2) (f : Byte → Byte) (ra : Byte) (s : State) :
    EndsBy i s (alu1 f ra s) :=
  endsBy_withReg ra fun _ => (setReg_same s _ _).completes_advance hl

theorem endsBy_alu2 {i : Instr} (hl : i.length = 3) (f : Byte → Byte → Byte) (ra rb : Byte) (s : State) :
    EndsBy i s (alu2 f ra rb s) :=
  endsBy_withRegs ra rb fun _ _ => (setReg_same s _ _).completes_advance hl

theorem endsBy_aluDivide {i : Instr} (hl : i.length = 3) (op : Byte) (f : Byte → Byte → Byte) (ra rb : Byte)
    (s : State) : EndsBy i s (aluDivide op f ra rb s) := by
  refine endsBy_withRegs ra rb fun a b => ?_
  by_cases h : s.reg b = 0x00#8
  · rw [if_pos h]
    exact nofun
  · rw [if_neg h]
    exact (setReg_same s _ _).completes_advance hl

theorem endsBy_execCmp (ra rb : Byte) (s : State) : EndsBy (.cmp ra rb) s (execCmp ra rb s) :=
  endsBy_withRegs ra rb fun _ _ => ⟨.inr (.inl rfl), .inl rfl, rfl, .inl rfl, .inl rfl, id⟩

theorem endsBy_jumpIf {i : Instr} (hl : i.length = 2) (hj : i.mnemonic.setsPc = true) (cond : Byte → Bool)
    (ra : Byte) (s : State) : EndsBy i s (jumpIf cond ra s) := by
  refine endsBy_withReg ra fun a => ?_
  cases cond s.fl with
  | true => exact (SameButRegsMem.refl s).sameControl.completes_jumpTo hj _
  | false => exact (SameButRegsMem.refl s).completes_advance hl

theorem endsBy_execJmp (ra : Byte) (s : State) : EndsBy (.jmp ra) s (execJmp ra s) :=
  endsBy_withReg ra fun _ => (SameButRegsMem.refl s).sameControl.completes_jumpTo rfl _

theorem endsBy_execCall (ra : Byte) (s : State) : EndsBy (.call ra) s (execCall ra s) := by
  refine endsBy_withReg ra fun a => ?_
  by_cases h : s.pc.toNat + 2 > 0xFF
  · rw [if_pos h]
    exact nofun
  · rw [if_neg h]
    exact .bind push_error_kind fun t ht =>
      ((push_same ht).sameControl.trans (drawScratch_sameControl t)).completes_jumpTo rfl _

theorem endsBy_execRet (s : State) : EndsBy .ret s (execRet s) :=
  ⟨_, rfl, .bind pop_error_kind fun _ h =>
    ((drawScratch_sameControl s).trans (pop_same h).sameControl).completes_jumpTo rfl _⟩

theorem endsBy_execIret (s : State) : EndsBy .iret s (execIret s) := by
  refine ⟨interruptReturn s, rfl, ?_⟩
  cases h : interruptReturn s with
  | error r =>
    cases interruptReturn_error h
    exact nofun
  | ok t =>
    obtain ⟨a, f, b, p, c, ha, hb, hc, rfl⟩ := interruptReturn_ok h
    have hab := (popRegs_same ha).trans (pop_same hb)
    have hfc := pop_same hc
    exact ⟨.inr (.inr rfl), .inl (hfc.state.trans hab.state), hfc.fault.trans hab.fault,
      .inl (hfc.console.trans hab.console), .inr ⟨rfl, jumpTo_pc_le c p⟩, fun w => hfc.wf (hab.wf w)⟩

theorem endsBy_execLdi (ra imm : Byte) (s : State) : EndsBy (.ldi ra imm) s (execLdi ra imm s) :=
  endsBy_withReg ra fun _ => (setReg_same s _ _).completes_advance rfl

theorem endsBy_execLd (ra rb : Byte) (s : State) : EndsBy (.ld ra rb) s (execLd ra rb s) :=
  endsBy_withRegs ra rb fun _ _ => (setReg_same s _ _).completes_advance rfl

theorem endsBy_execSt (ra rb : Byte) (s : State) : EndsBy (.st ra rb) s (execSt ra rb s) :=
  endsBy_withRegs ra rb fun _ _ => (store_same s _ _).completes_advance rfl

theorem endsBy_execPush (ra : Byte) (s : State) : EndsBy (.push ra) s (execPush ra s) :=
  endsBy_withReg ra fun _ => .bind spDec_error_kind fun _ h =>
    ((spDec_same h).trans (store_same _ _ _)).completes_advance rfl

theorem endsBy_execPop (ra : Byte) (s : State) : EndsBy (.pop ra) s (execPop ra s) :=
  endsBy_withReg ra fun _ => .bind spInc_error_kind fun _ h =>
    ((setReg_same s _ _).trans (spInc_same h)).completes_advance rfl

theorem endsBy_emit {i : Instr} {s : State} (hl : i.length = 2) (hi : i.mnemonic = .prn ∨ i.mnemonic = .pra)
    (ra : Byte) (event : Byte → ConsoleEvent) :
    EndsBy i s (withReg ra s fun a => .ok ((s.emit (event (s.reg a))).advance 1)) :=
  endsBy_withReg ra fun _ => ⟨.inl rfl, .inl rfl, rfl, .inr ⟨hi, _, rfl⟩, .inl (by rw [hl]; rfl), id⟩

theorem endsBy_execHlt (s : State) : EndsBy .hlt s (execHlt s) :=
  endsBy_next ⟨.inl rfl, .inr ⟨rfl, rfl⟩, rfl, .inl rfl, .inl rfl, id⟩

/-- Every instruction completes or raises a fatal error, in every state. -/
theorem exec_endsBy (i : Instr) (s : State) : EndsBy i s (exec i s) := by
  cases i
  case nop => exact endsBy_next ((SameButRegsMem.refl s).completes_advance rfl)
  case hlt => exact endsBy_execHlt s
  case ret => exact endsBy_execRet s
  case iret => exact endsBy_execIret s
  case push => exact endsBy_execPush _ s
  case pop => exact endsBy_execPop _ s
  case prn => exact endsBy_emit rfl (.inl rfl) _ .number
  case pra => exact endsBy_emit rfl (.inr rfl) _ .char
  case call => exact endsBy_execCall _ s
  case jmp => exact endsBy_execJmp _ s
  case jeq | jne | jgt | jlt | jle | jge => exact endsBy_jumpIf rfl rfl _ _ s
  case inc | dec | not => exact endsBy_alu1 rfl _ _ s
  case ldi => exact endsBy_execLdi _ _ s
  case ld => exact endsBy_execLd _ _ s
  case st => exact endsBy_execSt _ _ s
  case div | mod => exact endsBy_aluDivide rfl _ _ _ _ s
  case cmp => exact endsBy_execCmp _ _ s
  case add | sub | mul | and | or | xor | shl | shr => exact endsBy_alu2 rfl _ _ _ s

/-- An instruction that answers `t` completed with it, or raised an error and `t` is FAULTED. -/
theorem exec_next_cases {i : Instr} {s t : State} (h : exec i s = .next t) :
    Completes i s t ∨ ∃ r, NotUnsupportedAluOp r ∧ t = s.enterFaulted r := by
  obtain ⟨x, hx, ha⟩ := exec_endsBy i s
  rcases settle_eq_next_iff.1 (hx.symm.trans h) with rfl | ⟨r, rfl, rfl⟩
  · exact .inl ha
  · exact .inr ⟨r, ha, rfl⟩

theorem exec_wf {i : Instr} {s t : State} (h : exec i s = .next t) (w : s.mem.wf = true) : t.mem.wf = true := by
  rcases exec_next_cases h with hc | ⟨r, -, rfl⟩
  · exact hc.wf w
  · exact enterFaulted_wf s r

theorem exists_settle_eq_next (s : State) (x : Except FaultRecord State) : ∃ t, settle s x = .next t := by
  cases x with
  | ok t => exact ⟨t, rfl⟩
  | error r => exact ⟨s.enterFaulted r, rfl⟩

/-- Settles O7: the outcome of an instruction is a settled result, and that is a next state. -/
theorem execAlwaysAnswersState : Obligations.ExecAlwaysAnswersState := by
  intro i s
  obtain ⟨x, hx, -⟩ := exec_endsBy i s
  rw [hx]
  exact exists_settle_eq_next s x

/-- Settles O18: an instruction whose sets-PC bit is 0 completes with `pc` advanced. -/
theorem pcAdvancesByLength : Obligations.PcAdvancesByLength := by
  intro i s t hset h hstate
  rcases exec_next_cases h with hc | ⟨r, -, rfl⟩
  · rcases hc.pc with hpc | ⟨hj, -⟩
    · exact hpc
    · rw [hset] at hj
      cases hj
  · exact absurd rfl hstate

/-! ### The register check -/

theorem regOperand_of_high {b : Byte} (s : State) (h : 7 < b.toNat) :
    regOperand s b = .error ⟨.outOfBoundsAccess, s.pc, .registerIndex b⟩ :=
  regOperand_error_iff.2 ⟨decide_eq_false (by omega), rfl⟩

theorem faults_withReg_of_high {s : State} {ra b : Byte} (body : Reg → Except FaultRecord State)
    (h : [ra].find? (fun c => decide (7 < c.toNat)) = some b) :
    Faults (withReg ra s body) ⟨.outOfBoundsAccess, s.pc, .registerIndex b⟩ s.console := by
  have hb : 7 < b.toNat := by simpa using List.find?_some h
  have hra : b = ra := by simpa using List.mem_of_find?_eq_some h
  subst hra
  rw [withReg, regOperand_of_high s hb]
  exact faults_settle s _

/-- Byte 1 is the one found when it is above 7; otherwise it names a register and byte 2 is found. -/
theorem faults_withRegs_of_high {s : State} {ra rb b : Byte} (body : Reg → Reg → Except FaultRecord State)
    (h : [ra, rb].find? (fun c => decide (7 < c.toNat)) = some b) :
    Faults (withRegs ra rb s body) ⟨.outOfBoundsAccess, s.pc, .registerIndex b⟩ s.console := by
  by_cases ha : 7 < ra.toNat
  · rw [List.find?_cons_of_pos (by simpa using ha)] at h
    cases h
    rw [withRegs, regOperand_of_high s ha]
    exact faults_settle s _
  · rw [List.find?_cons_of_neg (by simpa using ha)] at h
    have hok : regOperand s ra = .ok ⟨ra.toNat, by omega⟩ := regOperand_ok_iff.2 rfl
    rw [withRegs, hok]
    exact faults_withReg_of_high (body ⟨ra.toNat, by omega⟩) h

/-- Settles O10: whatever an instruction does is the body of `withReg` or `withRegs`, which check first. -/
theorem registerIndexAboveSevenFaults : Obligations.RegisterIndexAboveSevenFaults := by
  intro i s b h
  cases i
  case nop | hlt | ret | iret => cases h
  case push | pop | prn | pra | call | jmp | jeq | jne | jgt | jlt | jle | jge | inc | dec | not | ldi =>
    exact faults_withReg_of_high _ h
  case ld | st | add | sub | mul | div | mod | cmp | and | or | xor | shl | shr =>
    exact faults_withRegs_of_high _ h

/-! ### The cycle -/

/-- What a cycle can do: the instruction fetched after the check completes, or an error of the check, the fetch or
the instruction ends it in FAULTED, with the console as it was. -/
theorem step_next_cases {s t : State} (h : step s = .next t) :
    s.state = .running ∧
      ((∃ u i, intCheck s = .ok u ∧ fetch u = .ok i ∧ Completes i u t) ∨
        ∃ (u : State) (r : FaultRecord),
          u.console = s.console ∧ NotUnsupportedAluOp r ∧ t = u.enterFaulted r) := by
  cases hs : s.state with
  | halted => simp [step, hs] at h
  | faulted => simp [step, hs] at h
  | running =>
    refine ⟨rfl, ?_⟩
    cases hc : intCheck s with
    | error r =>
      simp only [step, hs, hc, settle_error, Host.Outcome.next.injEq] at h
      exact .inr ⟨s, r, rfl, intCheck_error_kind hc, h.symm⟩
    | ok u =>
      cases hf : fetch u with
      | error r =>
        simp only [step, hs, hc, hf, settle_error, Host.Outcome.next.injEq] at h
        exact .inr ⟨u, r, intCheck_console hc, fetch_error_kind hf, h.symm⟩
      | ok i =>
        rw [step_of_fetch_ok hs hc hf] at h
        rcases exec_next_cases h with hi | ⟨r, hr, rfl⟩
        · exact .inl ⟨u, i, rfl, hf, hi⟩
        · exact .inr ⟨u, r, intCheck_console hc, hr, rfl⟩

/-- Settles O6: each way a cycle can end settles a result. -/
theorem cyclesRunExactlyInRunning : Obligations.CyclesRunExactlyInRunning := by
  refine fun s => ⟨fun hs => ?_, fun hs => by simp only [step, hs], fun hs => by simp only [step, hs]⟩
  cases hc : intCheck s with
  | error r =>
    obtain ⟨t, ht, -⟩ := faults_step_of_intCheck_error hs hc
    exact ⟨t, ht⟩
  | ok u =>
    cases hf : fetch u with
    | error r =>
      obtain ⟨t, ht, -⟩ := faults_step_of_fetch_error hs hc hf
      exact ⟨t, ht⟩
    | ok i =>
      rw [step_of_fetch_ok hs hc hf]
      exact execAlwaysAnswersState i u

theorem pc_le_of_fetch_ok {s : State} {i : Instr} (h : fetch s = .ok i) : s.pc.toNat ≤ 0xFF := by
  by_contra hpc
  rw [fetch_above_memory (by omega)] at h
  cases h

theorem enterFaulted_inv (s : State) (r : FaultRecord) : Inv (s.enterFaulted r) :=
  ⟨enterFaulted_wf s r, by simp, fun h => absurd rfl h⟩

/-- An instruction fetched within memory that completes leaves `pc` at most 0x102 (10_state.md R23). -/
theorem Completes.pc_le {i : Instr} {s t : State} (h : Completes i s t) (hpc : s.pc.toNat ≤ 0xFF) :
    t.pc.toNat ≤ 0x102 := by
  rcases h.pc with h | ⟨-, h⟩
  · have hl := length_le_three i
    rw [h, BitVec.toNat_add, BitVec.toNat_ofNat]
    omega
  · omega

/-- Settles O11: a completing instruction keeps memory's canonical form and the absent fault record, and FAULTED
meets the invariant by itself. -/
theorem stepKeepsInv : Obligations.StepKeepsInv := by
  intro s t hinv h
  obtain ⟨hs, ⟨u, i, hc, hf, hi⟩ | ⟨u, r, -, -, rfl⟩⟩ := step_next_cases h
  · have hu := intCheck_sameControl hc
    have hrun : t.state ≠ .faulted := by
      rcases hi.state with h | ⟨-, h⟩
      · rw [h, hu.state, hs]
        exact nofun
      · rw [h]
        exact nofun
    have hnone : ¬ s.fault.isSome = true := fun h => by
      cases hs.symm.trans (hinv.fault.1 h)
    refine ⟨hi.wf (hu.wf hinv.mem), ?_, fun _ => hi.pc_le (pc_le_of_fetch_ok hf)⟩
    rw [hi.fault, hu.fault]
    exact iff_of_false hnone hrun
  · exact enterFaulted_inv u r

/-- Settles O15: the check keeps FL, and so does every instruction that completes but CMP and IRET. -/
theorem onlyCmpAndIretChangeFlags : Obligations.OnlyCmpAndIretChangeFlags := by
  intro s t h hstate hfl
  obtain ⟨-, ⟨u, i, hc, hf, hi⟩ | ⟨u, r, -, -, rfl⟩⟩ := step_next_cases h
  · rcases hi.fl with h | h
    · exact absurd (h.trans (intCheck_sameControl hc).fl) hfl
    · exact ⟨u, i, hc, hf, h⟩
  · exact absurd rfl hstate

/-- Settles O16: the check keeps RUNNING, and so does every instruction that completes but HLT. -/
theorem onlyHltHalts : Obligations.OnlyHltHalts := by
  intro s t h hstate
  obtain ⟨hs, ⟨u, i, hc, hf, hi⟩ | ⟨u, r, -, -, rfl⟩⟩ := step_next_cases h
  · rcases hi.state with h | ⟨rfl, -⟩
    · rw [h, (intCheck_sameControl hc).state, hs] at hstate
      cases hstate
    · exact ⟨u, hc, hf⟩
  · cases hstate

/-- Settles O17: the check and FAULTED keep the console, and so does every instruction that completes but PRN and
PRA. -/
theorem consoleIsAppendOnly : Obligations.ConsoleIsAppendOnly := by
  intro s t h
  obtain ⟨-, ⟨u, i, hc, hf, hi⟩ | ⟨u, r, hu, -, rfl⟩⟩ := step_next_cases h
  · have hu := intCheck_console hc
    rcases hi.console with h | ⟨hm, e, he⟩
    · exact .inl (h.trans hu)
    · exact .inr ⟨u, i, e, hc, hf, hm, by rw [he, hu]⟩
  · exact .inl hu

/-- Settles O19: no instruction completes in FAULTED, so the state is the one a fatal error enters. -/
theorem fatalErrorIsObserved : Obligations.FatalErrorIsObserved := by
  intro s t hs h hstate
  obtain ⟨-, ⟨u, i, hc, -, hi⟩ | ⟨u, r, hu, hr, rfl⟩⟩ := step_next_cases h
  · rcases hi.state with h | ⟨-, h⟩
    · rw [h, (intCheck_sameControl hc).state, hs] at hstate
      cases hstate
    · cases h.symm.trans hstate
  · exact ⟨r, by rw [← hu]; rfl, hr⟩

end Sys2Proof.Machine
end

section
/-!
The rest of the ALU (41_alu.md): division, the shifts, and the conditional jumps after a comparison.
-/
namespace Sys2Proof.Machine

/-! ### Division -/

theorem aluDiv_toNat (a b : Byte) : (aluDiv a b).toNat = a.toNat / b.toNat := by
  have ha := a.isLt
  have hle := Nat.div_le_self a.toNat b.toNat
  rw [aluDiv, BitVec.toNat_ofNat, Nat.mod_eq_of_lt (by omega)]

theorem aluMod_toNat (a b : Byte) : (aluMod a b).toNat = a.toNat % b.toNat := by
  have ha := a.isLt
  have hle := Nat.mod_le a.toNat b.toNat
  rw [aluMod, BitVec.toNat_ofNat, Nat.mod_eq_of_lt (by omega)]

theorem aluDivide_regByte (op : Byte) (f : Byte → Byte → Byte) (d : Reg) {r : Reg} {s : State}
    (h : s.reg r ≠ 0x00#8) :
    aluDivide op f (regByte d) (regByte r) s = .next ((s.setReg d (f (s.reg d) (s.reg r))).advance 2) := by
  rw [aluDivide, withRegs_regByte, if_neg h, settle_ok]

/-- Settles O22: with a divisor other than 0 both divisions write their value, and the two values are the quotient
and the remainder. -/
theorem divModGiveQuotientAndRemainder : Obligations.DivModGiveQuotientAndRemainder := by
  intro d r s h
  have hpos : 0 < (s.reg r).toNat := Nat.pos_of_ne_zero fun e => h (BitVec.eq_of_toNat_eq e)
  refine ⟨(s.reg d).toNat / (s.reg r).toNat, (s.reg d).toNat % (s.reg r).toNat,
    (Nat.div_add_mod' _ _).symm, Nat.mod_lt _ hpos, ?_, ?_⟩
  · rw [← aluDiv_toNat]
    exact writesReg_of_exec_eq (aluDivide_regByte 0xA3#8 aluDiv d h) rfl
  · rw [← aluMod_toNat]
    exact writesReg_of_exec_eq (aluDivide_regByte 0xA4#8 aluMod d h) rfl

/-! ### Shifts -/

/-- A count of 8 or more shifts every bit out: the product is a multiple of 256. -/
theorem aluShl_toNat (a b : Byte) :
    (aluShl a b).toNat = if 8 ≤ b.toNat then 0 else a.toNat * 2 ^ b.toNat % 256 := by
  rw [aluShl, BitVec.toNat_ofNat]
  by_cases h : 8 ≤ b.toNat
  · rw [if_pos h]
    exact Nat.mod_eq_zero_of_dvd (Dvd.dvd.mul_left (Nat.pow_dvd_pow 2 h) a.toNat)
  · rw [if_neg h]

/-- A count of 8 or more shifts every bit out: the divisor is above every byte. -/
theorem aluShr_toNat (a b : Byte) :
    (aluShr a b).toNat = if 8 ≤ b.toNat then 0 else a.toNat / 2 ^ b.toNat := by
  have ha := a.isLt
  have hle := Nat.div_le_self a.toNat (2 ^ b.toNat)
  rw [aluShr, BitVec.toNat_ofNat, Nat.mod_eq_of_lt (by omega)]
  by_cases h : 8 ≤ b.toNat
  · rw [if_pos h]
    exact Nat.div_eq_of_lt (ha.trans_le (Nat.pow_le_pow_right (by decide) h))
  · rw [if_neg h]

/-- Settles O25: SHL and SHR put the shifted value in the destination. -/
theorem shiftsUseWholeCount : Obligations.ShiftsUseWholeCount := by
  intro d r s
  rw [← aluShl_toNat, ← aluShr_toNat]
  exact ⟨writesReg_of_exec_eq_alu2 aluShl rfl rfl, writesReg_of_exec_eq_alu2 aluShr rfl rfl⟩

/-! ### Compare, then jump -/

theorem compareFlags_lt_eight (a b : Byte) : (compareFlags a b).toNat < 8 := by
  unfold compareFlags
  split
  · decide
  · split <;> decide

/-- A conditional jump goes where a proposition says that its condition on FL stands for. -/
theorem jumpIf_goes {cond : Byte → Bool} {t : State} {c : Prop} (h : cond t.fl = true ↔ c) (j : Reg) :
    (c → jumpIf cond (regByte j) t = .next { t with pc := (t.reg j).zeroExtend 9 }) ∧
      (¬ c → jumpIf cond (regByte j) t = .next { t with pc := t.pc + 2 }) := by
  rw [jumpIf_regByte, ← h]
  exact ⟨fun hc => by rw [if_pos hc], fun hc => by rw [if_neg hc]⟩

section
variable (a b : Byte)

theorem condEq_compareFlags : condEq (compareFlags a b) = true ↔ a.toNat = b.toNat := by
  rw [condEq, (flags_compareFlags a b).1, decide_eq_true_iff]

theorem condNe_compareFlags : condNe (compareFlags a b) = true ↔ a.toNat ≠ b.toNat := by
  rw [condNe, (flags_compareFlags a b).1, Bool.not_eq_true', decide_eq_false_iff_not]

theorem condGt_compareFlags : condGt (compareFlags a b) = true ↔ b.toNat < a.toNat := by
  rw [condGt, (flags_compareFlags a b).2.1, decide_eq_true_iff]

theorem condLt_compareFlags : condLt (compareFlags a b) = true ↔ a.toNat < b.toNat := by
  rw [condLt, (flags_compareFlags a b).2.2, decide_eq_true_iff]

theorem condGe_compareFlags : condGe (compareFlags a b) = true ↔ b.toNat ≤ a.toNat := by
  have h : condGe (compareFlags a b) = (condEq (compareFlags a b) || condGt (compareFlags a b)) := rfl
  rw [h, Bool.or_eq_true, condEq_compareFlags, condGt_compareFlags]
  omega

theorem condLe_compareFlags : condLe (compareFlags a b) = true ↔ a.toNat ≤ b.toNat := by
  have h : condLe (compareFlags a b) = (condEq (compareFlags a b) || condLt (compareFlags a b)) := rfl
  rw [h, Bool.or_eq_true, condEq_compareFlags, condLt_compareFlags]
  omega

end

/-- Settles O27: CMP writes no register, and each jump's condition holds of the flags when its name says so. -/
theorem compareThenJump : Obligations.CompareThenJump := by
  intro a b j s t h
  cases (execCmp_regByte a b s).symm.trans h
  refine ⟨compareFlags_lt_eight _ _, ?jeq, ?jne, ?jgt, ?jge, ?jlt, ?jle⟩
  case jeq => exact jumpIf_goes (condEq_compareFlags _ _) j
  case jne => exact jumpIf_goes (condNe_compareFlags _ _) j
  case jgt => exact jumpIf_goes (condGt_compareFlags _ _) j
  case jge => exact jumpIf_goes (condGe_compareFlags _ _) j
  case jlt => exact jumpIf_goes (condLt_compareFlags _ _) j
  case jle => exact jumpIf_goes (condLe_compareFlags _ _) j

end Sys2Proof.Machine
end

section
/-!
Frames put together, and the instructions that load, store and use the stack (42_data_transfer.md), the output and
system instructions (44_system.md), reset and the host's load (10_state.md section 7, 70_reset_and_hazards.md).
-/
namespace Sys2Proof.Machine

/-! ### Frames -/

/-- What either of two changes touches. -/
def Touched.union (x y : Touched) : Touched where
  regs := x.regs ++ y.regs
  mem := x.mem ++ y.mem
  fl := x.fl || y.fl
  state := x.state || y.state
  console := x.console || y.console

/-- What two changes in a row leave alone. -/
theorem Frame.trans {x y : Touched} {s t u : State} (h : Frame x s t) (h' : Frame y t u) :
    Frame (x.union y) s u where
  regs r hr := by
    simp only [Touched.union, List.mem_append, not_or] at hr
    exact (h'.regs r hr.2).trans (h.regs r hr.1)
  mem a ha hm := by
    simp only [Touched.union, List.mem_append, not_or] at hm
    exact (h'.mem a ha hm.2).trans (h.mem a ha hm.1)
  fl hf := by
    simp only [Touched.union, Bool.or_eq_false_iff] at hf
    exact (h'.fl hf.2).trans (h.fl hf.1)
  state hs := by
    simp only [Touched.union, Bool.or_eq_false_iff] at hs
    exact (h'.state hs.2).trans (h.state hs.1)
  console hc := by
    simp only [Touched.union, Bool.or_eq_false_iff] at hc
    exact (h'.console hc.2).trans (h.console hc.1)
  fault := h'.fault.trans h.fault
  tick := h'.tick.trans h.tick

/-- Registers that end as they began need not be named, and more addresses may be. -/
theorem Frame.of_regs_eq {x : Touched} {s t : State} {addrs : List Nat} (h : Frame x s t)
    (hr : ∀ r, t.reg r = s.reg r) (hm : x.mem ⊆ addrs) : Frame { x with regs := [], mem := addrs } s t where
  regs r _ := hr r
  mem a ha hmem := h.mem a ha fun hx => hmem (hm hx)
  fl := h.fl
  state := h.state
  console := h.console
  fault := h.fault
  tick := h.tick

theorem frame_setReg (s : State) (d : Reg) (v : Byte) : Frame { regs := [d] } s (s.setReg d v) where
  regs r hr := reg_setReg_other s (by simpa [eq_comm] using hr) v
  mem _ _ _ := rfl
  fl _ := rfl
  state _ := rfl
  console _ := rfl
  fault := rfl
  tick := rfl

theorem frame_store {s : State} (w : s.mem.wf = true) (a v : Byte) : Frame { mem := [a.toNat] } s (s.store a v) where
  regs _ _ := rfl
  mem b _ hb := read_write_other w (by simpa [eq_comm] using hb) v
  fl _ := rfl
  state _ := rfl
  console _ := rfl
  fault := rfl
  tick := rfl

theorem frame_drawScratch {s : State} (w : s.mem.wf = true) : Frame { mem := [0xF5] } s s.drawScratch where
  regs _ _ := rfl
  mem b _ hb := read_write_other w (by simpa [eq_comm] using hb) _
  fl _ := rfl
  state _ := rfl
  console _ := rfl
  fault := rfl
  tick := rfl

/-- A frame says nothing of `pc`. -/
theorem Frame.advance {x : Touched} {s t : State} (h : Frame x s t) (n : Nat) : Frame x s (t.advance n) :=
  ⟨h.regs, h.mem, h.fl, h.state, h.console, h.fault, h.tick⟩

theorem Frame.jumpTo {x : Touched} {s t : State} (h : Frame x s t) (v : Byte) : Frame x s (t.jumpTo v) :=
  ⟨h.regs, h.mem, h.fl, h.state, h.console, h.fault, h.tick⟩

/-! ### Loads and stores -/

theorem execLdi_regByte (d : Reg) (imm : Byte) (s : State) :
    execLdi (regByte d) imm s = .next ((s.setReg d imm).advance 2) := by
  rw [execLdi, withReg_regByte, settle_ok]

theorem execLd_regByte (d r : Reg) (s : State) :
    execLd (regByte d) (regByte r) s = .next ((s.setReg d (s.load (s.reg r))).advance 2) := by
  rw [execLd, withRegs_regByte, settle_ok]

theorem execSt_regByte (v a : Reg) (s : State) :
    execSt (regByte v) (regByte a) s = .next ((s.store (s.reg a) (s.reg v)).advance 2) := by
  rw [execSt, withRegs_regByte, settle_ok]

/-- Settles O28: LDI and LD write one register, the immediate or the byte at the address. -/
theorem loadsWriteDestination : Obligations.LoadsWriteDestination :=
  fun d r imm s => ⟨writesReg_of_exec_eq (execLdi_regByte d imm s) rfl,
    writesReg_of_exec_eq (execLd_regByte d r s) rfl⟩

/-- Settles O29: ST is one store and the advance. -/
theorem storeWritesCell : Obligations.StoreWritesCell :=
  fun v a s w => ⟨_, execSt_regByte v a s, read_write_same w _ _, rfl, (frame_store w _ _).advance 2⟩

/-- With no tick and every line masked a cycle runs the instruction at `pc`. -/
theorem step_of_no_interrupt {s : State} {i : Instr} (hs : s.state = .running) (htick : s.tick = false)
    (hmask : s.reg imReg = 0x00#8) (hi : InstrAt i s) : step s = exec i (timerStep s) := by
  refine stepRunsDecodedInstruction s _ i hs (intCheck_of_lineTaken_none (lineTaken_of_mask_zero ?_)) ?_
  · rwa [timerStep_reg_other s (by decide)]
  · rwa [InstrAt, timerStep_mem_of_no_tick htick]

theorem instrAt_hlt {s : State} (hpc : s.pc.toNat ≤ 0xFF) (h : s.mem.read s.pc.toNat = 0x01#8) :
    InstrAt .hlt s := by
  refine ⟨Nat.succ_le_succ hpc, fun k hk => ?_⟩
  obtain rfl : k = 0 := Nat.lt_one_iff.1 hk
  exact h

/-- Settles O34: ST leaves `pc` at the cell it wrote, so HLT lies there for the next cycle. -/
theorem storedHltIsFetchedNext : Obligations.StoredHltIsFetchedNext := by
  intro v a s w hs htick hmask hv ha
  have hlt := (s.reg a).isLt
  have hpc : (s.pc + 3).toNat = (s.reg a).toNat := by bv_omega
  have hi : InstrAt .hlt ((s.store (s.reg a) (s.reg v)).advance 2) := by
    refine instrAt_hlt (Nat.le_of_lt_succ (hpc.trans_lt hlt)) ?_
    exact (congrArg _ hpc).trans ((read_write_same w _ _).trans hv)
  have hstep := step_of_no_interrupt (s := (s.store (s.reg a) (s.reg v)).advance 2) hs htick hmask hi
  exact ⟨_, _, execSt_regByte v a s, hstep, rfl, BitVec.add_assoc s.pc 3 1⟩

/-! ### PUSH and POP -/

theorem execPush_regByte {s : State} (h : s.reg spReg ≠ 0x00#8) (d : Reg) :
    execPush (regByte d) s = .next (((s.setReg spReg (s.reg spReg - 1)).store (s.reg spReg - 1)
      ((s.setReg spReg (s.reg spReg - 1)).reg d)).advance 1) := by
  rw [execPush, withReg_regByte, spDec_ok_iff.2 ⟨h, rfl⟩, bind_ok, reg_setReg_same, settle_ok]

theorem execPop_regByte {s u : State} {d : Reg} (hu : u = s.setReg d (s.load (s.reg spReg)))
    (h : u.reg spReg ≠ 0xFF#8) :
    execPop (regByte d) s = .next ((u.setReg spReg (u.reg spReg + 1)).advance 1) := by
  rw [execPop, withReg_regByte, ← hu, spInc_ok_iff.2 ⟨h, rfl⟩, bind_ok, settle_ok]

theorem toNat_pred_eq {b : Byte} {p : Nat} (h : b.toNat = p + 1) : b ≠ 0x00#8 ∧ (b - 1).toNat = p := by
  have h0 : b ≠ 0x00#8 := by
    rintro rfl
    cases h
  have hp := toNat_pred h0
  exact ⟨h0, by omega⟩

/-- Settles O30: PUSH lowers SP and then stores the register as it reads after that at the new SP. -/
theorem pushWritesBelowSp : Obligations.PushWritesBelowSp := by
  intro d s p w hsp
  obtain ⟨h0, hp⟩ := toNat_pred_eq hsp
  refine ⟨_, execPush_regByte h0 d, by simpa using hp, ?_, rfl, ?_⟩
  · rw [advance_mem, store_mem, hp, setReg_mem, read_write_same w, reg_setReg]
    by_cases hd : d = 7
    · rw [if_pos hd, if_pos hd.symm, hp]
    · rw [if_neg hd, if_neg (Ne.symm hd)]
  · rw [← hp]
    exact ((frame_setReg s spReg _).trans (frame_store (s := s.setReg spReg _) w _ _)).advance 1

/-- Settles O31: POP writes the register and then raises SP as it reads after that. -/
theorem popReadsAtSp : Obligations.PopReadsAtSp := by
  intro d s v hsp
  obtain ⟨u, hu⟩ : ∃ u, u = s.setReg d v := ⟨_, rfl⟩
  have husp : u.reg spReg = if d = 7 then v else s.reg 7 := by rw [hu, reg_setReg]
  rw [← husp] at hsp ⊢
  refine ⟨_, execPop_regByte hu hsp, fun hd => ?_, ?_, by rw [hu]; rfl, ?_⟩
  · rw [advance_reg, reg_setReg_other _ (Ne.symm hd), hu, reg_setReg_same]
  · rw [advance_reg, reg_setReg_same, toNat_succ hsp]
  · rw [hu]
    exact ((frame_setReg s d v).trans (frame_setReg _ spReg _)).advance 1

/-- Settles O33: POP reads the byte PUSH wrote and raises SP back; for R7 that byte is SP's own lowered value. -/
theorem pushPopRoundTrip : Obligations.PushPopRoundTrip := by
  intro d s p w hsp
  obtain ⟨t, ht, htsp, htread, htpc, htframe⟩ := pushWritesBelowSp d s p w hsp
  have hlt := (s.reg 7).isLt
  have hnew : (if d = 7 then t.mem.read (t.reg 7).toNat else t.reg 7).toNat = p := by
    rw [htsp]
    by_cases hd : d = 7
    · rw [if_pos hd, htread, if_pos hd]
    · rw [if_neg hd, htsp]
  obtain ⟨u, hu, hud, husp, hupc, huframe⟩ := popReadsAtSp d t fun e => by
    rw [e, BitVec.toNat_ofNat] at hnew
    omega
  have hregs (r : Reg) : u.reg r = s.reg r := by
    by_cases hr7 : r = 7
    · subst hr7
      exact BitVec.eq_of_toNat_eq (by rw [husp, hnew, hsp])
    · by_cases hrd : r = d
      · subst hrd
        refine BitVec.eq_of_toNat_eq ?_
        rw [hud hr7, htsp, htread, if_neg hr7]
      · rw [huframe.regs r (by simp [hrd, hr7]), htframe.regs r (by simp [hr7])]
  refine ⟨t, u, ht, hu, hregs, ?_, (htframe.trans huframe).of_regs_eq hregs (List.Subset.refl _)⟩
  rw [hupc, htpc, BitVec.add_assoc]
  rfl

/-! ### Output and system -/

/-- Settles O42: each of the four is one update of the state. -/
theorem outputAndSystemResults : Obligations.OutputAndSystemResults := by
  refine fun d s => ⟨?prn, ?pra, rfl, rfl⟩
  case prn => exact (withReg_regByte d s _).trans rfl
  case pra => exact (withReg_regByte d s _).trans rfl

/-! ### Reset and load -/

theorem reset_read {a : Nat} (h : a ≠ checkpointAddr) : Memory.reset.read a = 0x00#8 := by
  by_cases hs : a = scratchAddr <;> simp [Memory.read, Memory.reset, readCells, h, hs]

/-- Settles O12: reset memory is in canonical form, and a reset machine is RUNNING with no fault record. -/
theorem resetMeetsInv : Obligations.ResetMeetsInv :=
  ⟨reset_wf, iff_of_false nofun nofun, fun _ => by decide⟩

/-- Settles O13: the values stand in the reset state; its memory lists no cell. -/
theorem resetValues : Obligations.ResetValues :=
  ⟨by decide, by decide, rfl, rfl, rfl, rfl, rfl, fun _ _ h => reset_read h⟩

/-- Settles O14: the load places the bytes from address 0 on. -/
theorem loadPlacesImage : Obligations.LoadPlacesImage := by
  intro image s w hlen
  refine ⟨_, if_pos hlen, fun a ha => ?_, rfl⟩
  rw [read_placeBytes w 0 image a ha, if_pos (Nat.zero_le a), Nat.sub_zero]

end Sys2Proof.Machine
end

section
/-!
CALL, RET and IRET (43_control_transfer.md section 1), and the stack checks of every instruction that uses the stack
(20_memory.md section 4).
-/
namespace Sys2Proof.Machine

/-! ### CALL and RET -/

theorem execCall_regByte {s : State} (hpc : s.pc.toNat + 2 ≤ 0xFF) (h : s.reg spReg ≠ 0x00#8) (d : Reg) :
    execCall (regByte d) s = .next ((((s.setReg spReg (s.reg spReg - 1)).store (s.reg spReg - 1)
      ((s.pc + 2).truncate 8)).drawScratch).jumpTo (s.reg d)) := by
  rw [execCall, withReg_regByte, if_neg (by omega), push_ok_iff.2 ⟨h, rfl⟩, bind_ok, settle_ok]

/-- Settles O36: CALL is a push, a draw of the scratch cell and a jump. -/
theorem callPushesReturnAddress : Obligations.CallPushesReturnAddress := by
  intro d s p w hpc hsp
  obtain ⟨h0, hp⟩ := toNat_pred_eq hsp
  have w' := write_byte_wf w (s.reg spReg - 1) ((s.pc + 2).truncate 8)
  refine ⟨_, execCall_regByte hpc h0 d, jumpTo_pc_toNat _ _, by simpa using hp, fun hp5 => ?_, ?_⟩
  · rw [jumpTo_mem, drawScratch_mem, store_mem, setReg_mem, read_write_other w' (Ne.symm hp5), hp,
      read_write_same w, BitVec.truncate_eq_setWidth]
    bv_omega
  · rw [← hp]
    exact (((frame_setReg s spReg _).trans (frame_store (s := s.setReg spReg _) w _ _)).trans
      (frame_drawScratch w')).jumpTo _

theorem execRet_eq {s : State} (h : s.reg spReg ≠ 0xFF#8) :
    execRet s = .next ((s.drawScratch.setReg spReg (s.reg spReg + 1)).jumpTo
      (s.drawScratch.load (s.reg spReg))) := by
  rw [execRet, pop_ok_iff.2 ⟨by rwa [drawScratch_reg], rfl, rfl⟩, bind_ok, settle_ok, drawScratch_reg]

/-- Settles O38: RET is a draw of the scratch cell, a pop and a jump to the byte popped. -/
theorem retPopsReturnAddress : Obligations.RetPopsReturnAddress := by
  intro s w h
  refine ⟨_, execRet_eq h, ?_, jumpTo_pc_le _ _, fun h5 => ?_, ?_⟩
  · rw [jumpTo_reg, reg_setReg_same, toNat_succ h]
  · have h5' : 0xF5 ≠ (s.reg 7).toNat := fun e => h5 (BitVec.eq_of_toNat_eq e.symm)
    rw [jumpTo_pc_toNat, State.load, drawScratch_mem, read_write_other w h5']
  · exact ((frame_drawScratch w).trans (frame_setReg _ spReg _)).jumpTo _

/-- Settles O39: RET finds the return address where CALL pushed it, and raises SP back. -/
theorem callReturnResumes : Obligations.CallReturnResumes := by
  intro d s p w hpc hsp hp5
  obtain ⟨t, ht, -, htsp, htread, htframe⟩ := callPushesReturnAddress d s p w hpc hsp
  have hlt := (s.reg 7).isLt
  obtain ⟨u, hu, husp, -, hupc, huframe⟩ := retPopsReturnAddress t (exec_wf ht w) fun e => by
    rw [e, BitVec.toNat_ofNat] at htsp
    omega
  have hpop : u.pc.toNat = s.pc.toNat + 2 := by
    rw [hupc fun e => hp5 (by rw [← htsp, e]; rfl), htsp, htread hp5]
  have hregs (r : Reg) : u.reg r = s.reg r := by
    by_cases hr : r = 7
    · subst hr
      exact BitVec.eq_of_toNat_eq (by rw [husp, htsp, hsp])
    · rw [huframe.regs r (by simp [hr]), htframe.regs r (by simp [hr])]
  refine ⟨t, u, ht, hu, by bv_omega, hregs, (htframe.trans huframe).of_regs_eq hregs ?_⟩
  exact List.append_subset.2 ⟨List.Subset.refl _, List.subset_cons_self p [0xF5]⟩

/-- Settles O37: the return address is looked at before the stack is. -/
theorem callAtLastAddressIsUnmodelled : Obligations.CallAtLastAddressIsUnmodelled := by
  intro d s hpc
  have hret : s.pc + 2 = 0x100#9 := by
    rw [hpc]
    rfl
  have hhigh : s.pc.toNat + 2 > 0xFF := by
    rw [hpc]
    decide
  show Faults (execCall (regByte d) s) _ _
  rw [execCall, withReg_regByte, if_pos hhigh, hret]
  exact faults_settle s _

/-! ### IRET -/

/-- What IRET pops from `s`, nine bytes from SP on, and what it leaves alone. -/
structure PopsFrame (s t : State) : Prop where
  sp : (t.reg 7).toNat = (s.reg 7).toNat + 9
  regs : ∀ r : Reg, r ≠ 7 → t.reg r = s.mem.read ((s.reg 7).toNat + (6 - r.val))
  fl : t.fl = s.mem.read ((s.reg 7).toNat + 7)
  pc : t.pc = (s.mem.read ((s.reg 7).toNat + 8)).zeroExtend 9
  mem : t.mem = s.mem
  state : t.state = s.state
  fault : t.fault = s.fault
  console : t.console = s.console
  tick : t.tick = s.tick

theorem pop_spec {s t : State} {v : Byte} (h : pop s = .ok (v, t)) :
    v = s.mem.read (s.reg spReg).toNat ∧ (t.reg spReg).toNat = (s.reg spReg).toNat + 1 ∧
      (∀ q, q ≠ spReg → t.reg q = s.reg q) ∧ t.mem = s.mem := by
  obtain ⟨h0, rfl, rfl⟩ := pop_ok_iff.1 h
  exact ⟨rfl, by rw [reg_setReg_same, toNat_succ h0], fun q hq => reg_setReg_other s (Ne.symm hq) _, rfl⟩

theorem pop_ok {s : State} (h : (s.reg spReg).toNat < 0xFF) : ∃ v t, pop s = .ok (v, t) := by
  have h0 : s.reg spReg ≠ 0xFF#8 := fun e => by
    rw [e] at h
    exact absurd h (by decide)
  exact ⟨_, _, pop_ok_iff.2 ⟨h0, rfl, rfl⟩⟩

/-- The registers IRET pops, in its order: register `r` is at index `6 - r`. -/
theorem popOrder_getElem {r : Reg} (hr : r ≠ 7) :
    ∃ h : 6 - r.val < ([6, 5, 4, 3, 2, 1, 0] : List Reg).length,
      ([6, 5, 4, 3, 2, 1, 0] : List Reg)[6 - r.val] = r := by
  revert r
  decide

theorem interruptReturn_spec {s t : State} (h : interruptReturn s = .ok t) : PopsFrame s t := by
  obtain ⟨a, f, b, q, c, ha, hb, hc, rfl⟩ := interruptReturn_ok h
  obtain ⟨ha7, -, haregs, hamem⟩ := popRegs_spec (by decide) (by decide) ha
  obtain ⟨hf, hb7, hbregs, hbmem⟩ := pop_spec hb
  obtain ⟨hq, hc7, hcregs, hcmem⟩ := pop_spec hc
  simp only [spReg, setFl_reg, setFl_mem, List.length_cons, List.length_nil] at ha7 hf hb7 hq hc7 hcregs hcmem
  have hsame := (popRegs_same ha).trans (pop_same hb)
  have hsame' := pop_same hc
  refine ⟨?sp, fun r hr => ?regs, ?fl, ?pc, ?mem, hsame'.state.trans hsame.state, hsame'.fault.trans hsame.fault,
    hsame'.console.trans hsame.console, hsame'.tick.trans hsame.tick⟩
  case sp => exact hc7.trans (by omega)
  case regs =>
    obtain ⟨hk, hr'⟩ := popOrder_getElem hr
    have hread := haregs _ hk
    rw [hr'] at hread
    rw [jumpTo_reg, hcregs r hr, hbregs r hr, hread]
  case fl => rw [jumpTo_fl, hsame'.fl, setFl_fl, hf, hamem, ha7]
  case pc => rw [jumpTo_pc, hq, hbmem, hamem, hb7, ha7]
  case mem => rw [jumpTo_mem, hcmem, hbmem, hamem]

theorem interruptReturn_ok_of_le {s : State} (h : (s.reg 7).toNat ≤ 0xF6) : ∃ t, interruptReturn s = .ok t := by
  obtain ⟨a, ha⟩ := popRegs_ok (rs := [6, 5, 4, 3, 2, 1, 0]) (s := s) (by decide)
    (by simp only [spReg, List.length_cons, List.length_nil]; omega)
  obtain ⟨ha7, -⟩ := popRegs_spec (by decide) (by decide) ha
  simp only [spReg, List.length_cons, List.length_nil] at ha7
  obtain ⟨f, b, hb⟩ := pop_ok (s := a) (by rw [ha7]; omega)
  obtain ⟨-, hb7, -⟩ := pop_spec hb
  obtain ⟨q, c, hc⟩ := pop_ok (s := b.setFl f) (by rw [setFl_reg, hb7, ha7]; omega)
  exact ⟨c.jumpTo q, by simp only [interruptReturn, ha, hb, hc, bind_ok]⟩

theorem execIret_spec {s : State} (h : (s.reg 7).toNat ≤ 0xF6) : ∃ t, exec .iret s = .next t ∧ PopsFrame s t := by
  obtain ⟨t, ht⟩ := interruptReturn_ok_of_le h
  refine ⟨t, ?_, interruptReturn_spec ht⟩
  show settle s (interruptReturn s) = _
  rw [ht, settle_ok]

/-- Settles O40: IRET pops its frame, and nothing it leaves unnamed is changed by a pop. -/
theorem iretPopsNineBytes : Obligations.IretPopsNineBytes := by
  intro s h
  obtain ⟨t, ht, hpop⟩ := execIret_spec h
  have hall : ∀ r : Reg, r ∈ ([0, 1, 2, 3, 4, 5, 6, 7] : List Reg) := by decide
  refine ⟨t, ht, hpop.regs, hpop.fl, hpop.pc, hpop.sp, ?_⟩
  exact ⟨fun r hr => absurd (hall r) hr, fun a _ _ => by rw [hpop.mem], nofun, fun _ => hpop.state,
    fun _ => hpop.console, hpop.fault, hpop.tick⟩

/-- Settles O41: were all nine pops to succeed, SP would rise above 0xFF; and the error of the pop that fails is the
underflow. -/
theorem iretUnderflowFaults : Obligations.IretUnderflowFaults := by
  intro s h
  show Faults (settle s (interruptReturn s)) _ _
  cases hr : interruptReturn s with
  | ok t =>
    have hsp := (interruptReturn_spec hr).sp
    have hlt := (t.reg 7).isLt
    omega
  | error r =>
    rw [interruptReturn_error hr]
    exact faults_settle s _

/-! ### The stack checks -/

theorem faults_execPush {s : State} (h : s.reg 7 = 0x00#8) (d : Reg) :
    Faults (execPush (regByte d) s) ⟨.outOfBoundsAccess, s.pc, .stackOverflow 0x00#8⟩ s.console := by
  rw [execPush, withReg_regByte, spDec_error_iff.2 ⟨h, rfl⟩]
  exact faults_settle s _

theorem faults_execCall {s : State} (h : s.reg 7 = 0x00#8) (hpc : s.pc.toNat + 2 ≤ 0xFF) (d : Reg) :
    Faults (execCall (regByte d) s) ⟨.outOfBoundsAccess, s.pc, .stackOverflow 0x00#8⟩ s.console := by
  rw [execCall, withReg_regByte, if_neg (by omega), push_error_iff.2 ⟨h, rfl⟩]
  exact faults_settle s _

theorem faults_execRet {s : State} (h : s.reg 7 = 0xFF#8) :
    Faults (execRet s) ⟨.outOfBoundsAccess, s.pc, .stackUnderflow 0xFF#8⟩ s.console := by
  rw [execRet, pop_error_iff.2 ⟨by rwa [drawScratch_reg], rfl⟩]
  exact faults_settle s _

/-- POP fails when the pointer it increments, which is the byte popped for R7, is 0xFF. -/
theorem faults_execPop {s : State} {d : Reg} (h : (s.setReg d (s.load (s.reg spReg))).reg 7 = 0xFF#8) :
    Faults (execPop (regByte d) s) ⟨.outOfBoundsAccess, s.pc, .stackUnderflow 0xFF#8⟩ s.console := by
  rw [execPop, withReg_regByte, spInc_error_iff.2 ⟨h, rfl⟩]
  exact faults_settle s _

/-- Settles O32: each instruction's stack primitive fails at its edge, before anything else of it can fail. -/
theorem stackEdgesFault : Obligations.StackEdgesFault := by
  refine fun d s => ⟨fun h => ⟨?push, fun hpc => ?call⟩, fun h => ⟨?ret, fun hd => ?pop⟩, fun h => ?pop7⟩
  case push => exact faults_execPush h d
  case call => exact faults_execCall h hpc d
  case ret => exact faults_execRet h
  case pop => exact faults_execPop ((reg_setReg_other s hd _).trans h)
  case pop7 => exact faults_execPop ((reg_setReg_same s 7 _).trans h)

end Sys2Proof.Machine
end

section
/-!
Interrupt entry and return (60_exceptions.md sections 2 to 4): the frame an entry leaves on the stack, the handler that
runs after it, and the IRET that undoes it.
-/
namespace Sys2Proof.Machine

/-! ### What an entry pushes -/

theorem interruptEntry_above_memory {s : State} (i : Fin 8) (h : 0xFF < s.pc.toNat) :
    interruptEntry i s = .error ⟨.unmodelled, s.pc, .pushedPc s.pc⟩ :=
  if_pos h

/-- Settles O47: the timer step keeps `pc`, and the entry looks at it before any push. -/
theorem interruptAboveMemoryIsUnmodelled : Obligations.InterruptAboveMemoryIsUnmodelled := fun _ i hs hline hpc =>
  faults_step_of_intCheck_error hs
    ((intCheck_of_lineTaken_some hline).trans (interruptEntry_above_memory i hpc))

/-- R6 after the entry of line `i`: the line's bit is cleared (60_exceptions.md R176). -/
def entryStatus (i : Fin 8) (s : State) : Byte := s.reg 6 &&& ~~~(BitVec.ofNat 8 (2 ^ i.val))

/-- The end of an entry, after its pushes: the mask is cleared, the scratch cell takes a draw and `pc` is the vector
(60_exceptions.md R177). -/
def enterVector (i : Fin 8) (s : State) : State :=
  ((s.setReg imReg 0x00#8).drawScratch).jumpTo (BitVec.ofNat 8 (0xF8 + i.val))

theorem enterVector_pc (i : Fin 8) (s : State) : (enterVector i s).pc.toNat = 0xF8 + i.val := by
  rw [enterVector, jumpTo_pc_toNat, BitVec.toNat_ofNat]
  omega

theorem enterVector_mask (i : Fin 8) (s : State) : (enterVector i s).reg imReg = 0x00#8 :=
  reg_setReg_same s imReg _

theorem enterVector_reg_other (i : Fin 8) (s : State) {r : Reg} (h : imReg ≠ r) :
    (enterVector i s).reg r = s.reg r :=
  reg_setReg_other s h _

theorem enterVector_read_other (i : Fin 8) {s : State} (w : s.mem.wf = true) {a : Nat} (h : a ≠ 0xF5) :
    (enterVector i s).mem.read a = s.mem.read a :=
  read_write_other w (Ne.symm h) _

/-- The pushes of an entry that succeeds, one after the other (60_exceptions.md R177). -/
theorem interruptEntry_pushes {i : Fin 8} {s t : State} (h : interruptEntry i s = .ok t) :
    s.pc.toNat ≤ 0xFF ∧ ∃ a b u, push (s.pc.truncate 8) (s.setReg isReg (entryStatus i s)) = .ok a ∧
      push s.fl a = .ok b ∧ pushRegs [0, 1, 2, 3, 4, 5, 6] b = .ok u ∧ t = enterVector i u := by
  have hpc : s.pc.toNat ≤ 0xFF := by
    by_contra hpc
    rw [interruptEntry_above_memory i (by omega)] at h
    cases h
  refine ⟨hpc, ?_⟩
  rw [interruptEntry, if_neg (by rw [setReg_pc]; omega)] at h
  obtain ⟨a, ha, h⟩ := bind_eq_ok_iff.1 h
  obtain ⟨b, hb, h⟩ := bind_eq_ok_iff.1 h
  obtain ⟨u, hu, h⟩ := bind_eq_ok_iff.1 h
  rw [(push_same ha).fl] at hb
  cases h
  exact ⟨a, b, u, ha, hb, hu, rfl⟩

theorem push_ok {v : Byte} {s : State} (h : 0 < (s.reg spReg).toNat) : ∃ t, push v s = .ok t := by
  have h0 : s.reg spReg ≠ 0x00#8 := fun e => by
    rw [e] at h
    exact absurd h (by decide)
  exact ⟨_, push_ok_iff.2 ⟨h0, rfl⟩⟩

theorem interruptEntry_ok_of_le {i : Fin 8} {s : State} (w : s.mem.wf = true) (hpc : s.pc.toNat ≤ 0xFF)
    (hsp : 9 ≤ (s.reg 7).toNat) : ∃ t, interruptEntry i s = .ok t := by
  have hsp' : ((s.setReg isReg (entryStatus i s)).reg spReg).toNat = (s.reg 7).toNat := by
    rw [reg_setReg_other s (by decide)]
  obtain ⟨a, ha⟩ := push_ok (v := s.pc.truncate 8) (s := s.setReg isReg (entryStatus i s)) (by omega)
  obtain ⟨ha7, -⟩ := push_spec (s := s.setReg isReg (entryStatus i s)) w ha
  obtain ⟨b, hb⟩ := push_ok (v := a.fl) (s := a) (by omega)
  obtain ⟨hb7, -⟩ := push_spec ((push_same ha).wf w) hb
  obtain ⟨u, hu⟩ := pushRegs_ok (rs := [0, 1, 2, 3, 4, 5, 6]) (s := b)
    (by simp only [List.length_cons, List.length_nil]; omega)
  refine ⟨enterVector i u, (if_neg (Nat.not_lt_of_le hpc)).trans ?_⟩
  exact bind_eq_ok_iff.2 ⟨a, ha, bind_eq_ok_iff.2 ⟨b, hb, bind_eq_ok_iff.2 ⟨u, hu, rfl⟩⟩⟩

/-- The registers an entry pushes, in its order: register `r` is at index `r`. -/
theorem pushOrder_getElem {r : Reg} (hr : r ≠ 7) :
    ∃ h : r.val < ([0, 1, 2, 3, 4, 5, 6] : List Reg).length,
      ([0, 1, 2, 3, 4, 5, 6] : List Reg)[r.val] = r := by
  revert r
  decide

/-- Two pushes and then R0 to R6, from SP = p + 9: where each byte lies, and what is left alone. -/
theorem nine_pushes_spec {v f : Byte} {s a b u : State} {p : Nat} (w : s.mem.wf = true)
    (hsp : (s.reg 7).toNat = p + 9) (ha : push v s = .ok a) (hb : push f a = .ok b)
    (hu : pushRegs [0, 1, 2, 3, 4, 5, 6] b = .ok u) :
    (u.reg 7).toNat = p ∧ (∀ q, q ≠ 7 → u.reg q = s.reg q) ∧
      (∀ r : Reg, r ≠ 7 → u.mem.read (p + (6 - r.val)) = s.reg r) ∧ u.mem.read (p + 7) = f ∧
      u.mem.read (p + 8) = v ∧ ∀ c, (c < p ∨ p + 9 ≤ c) → u.mem.read c = s.mem.read c := by
  have wa := (push_same ha).wf w
  obtain ⟨ha7, haregs, hamem⟩ := push_spec w ha
  obtain ⟨hb7, hbregs, hbmem⟩ := push_spec wa hb
  obtain ⟨hu7, huregs, hupushed, hukept⟩ := pushRegs_spec ((push_same hb).wf wa) (by decide) hu
  simp only [spReg, List.length_cons, List.length_nil] at *
  have hb7' : (b.reg 7).toNat = p + 7 := by omega
  rw [hb7'] at hu7 hupushed hukept
  refine ⟨by omega, fun q hq => ?regs, fun r hr => ?pushed, ?fl, ?pc, fun c hc => ?kept⟩
  case regs => rw [huregs q hq, hbregs q hq, haregs q hq]
  case pushed =>
    obtain ⟨hk, hr'⟩ := pushOrder_getElem hr
    have hread := hupushed r.val hk
    have haddr : p + 7 - 1 - r.val = p + (6 - r.val) := by
      have hlt : r.val < 7 := hk
      omega
    rwa [hr', haddr, hbregs r hr, haregs r hr] at hread
  case fl => rw [hukept _ (by omega), hbmem, if_pos (by omega)]
  case pc => rw [hukept _ (by omega), hbmem, if_neg (by omega), hamem, if_pos (by omega)]
  case kept => rw [hukept c (by omega), hbmem, if_neg (by omega), hamem, if_neg (by omega)]

/-- What an entry of line `i` with SP = p + 9 leaves (60_exceptions.md R176, R177); a frame byte or a cell that is the
scratch cell is not determined (92_eei_decisions.md D11). -/
structure EntersLine (i : Fin 8) (p : Nat) (s t : State) : Prop where
  status : t.reg 6 = entryStatus i s
  mask : t.reg 5 = 0x00#8
  sp : (t.reg 7).toNat = p
  pc : t.pc.toNat = 0xF8 + i.val
  regs : ∀ r : Reg, r.val < 5 → t.reg r = s.reg r
  savedStatus : p ≠ 0xF5 → t.mem.read p = entryStatus i s
  savedReg : ∀ r : Reg, r ≠ 6 → r ≠ 7 → p + (6 - r.val) ≠ 0xF5 → t.mem.read (p + (6 - r.val)) = s.reg r
  savedFl : p + 7 ≠ 0xF5 → t.mem.read (p + 7) = s.fl
  savedPc : p + 8 ≠ 0xF5 → t.mem.read (p + 8) = s.pc.truncate 8
  kept : ∀ a, a ≠ 0xF5 → (a < p ∨ p + 9 ≤ a) → t.mem.read a = s.mem.read a
  fl : t.fl = s.fl
  state : t.state = s.state
  fault : t.fault = s.fault
  console : t.console = s.console
  wf : t.mem.wf = true

theorem interruptEntry_spec {i : Fin 8} {s t : State} {p : Nat} (w : s.mem.wf = true)
    (hsp : (s.reg 7).toNat = p + 9) (h : interruptEntry i s = .ok t) : EntersLine i p s t := by
  obtain ⟨-, a, b, u, ha, hb, hu, rfl⟩ := interruptEntry_pushes h
  have hsame := (setReg_same s isReg (entryStatus i s)).trans
    ((push_same ha).trans ((push_same hb).trans (pushRegs_same hu)))
  have wu := hsame.wf w
  obtain ⟨hu7, huregs, hureads, hufl, hupc, hukept⟩ :=
    nine_pushes_spec (s := s.setReg isReg (entryStatus i s)) (p := p) w
      (by rwa [reg_setReg_other s (by decide)]) ha hb hu
  exact
    { status := by rw [enterVector_reg_other i u (by decide), huregs 6 (by decide), reg_setReg_same]
      mask := enterVector_mask i u
      sp := by rw [enterVector_reg_other i u (by decide), hu7]
      pc := enterVector_pc i u
      regs := fun r hr => by
        have h5 : imReg ≠ r := Fin.ne_of_val_ne (Nat.ne_of_gt hr)
        have h6 : isReg ≠ r := Fin.ne_of_val_ne (Nat.ne_of_gt (hr.trans (by decide)))
        have h7 : r ≠ 7 := Fin.ne_of_val_ne (Nat.ne_of_lt (hr.trans (by decide)))
        rw [enterVector_reg_other i u h5, huregs r h7, reg_setReg_other s h6]
      savedStatus := fun hp =>
        (enterVector_read_other i wu hp).trans ((hureads 6 (by decide)).trans (reg_setReg_same s isReg _))
      savedReg := fun r h6 h7 hp => by
        rw [enterVector_read_other i wu hp, hureads r h7, reg_setReg_other s (Ne.symm h6)]
      savedFl := fun hp => by rw [enterVector_read_other i wu hp, hufl]
      savedPc := fun hp => by rw [enterVector_read_other i wu hp, hupc]
      kept := fun c hc h => by rw [enterVector_read_other i wu hc, hukept c h, setReg_mem]
      fl := hsame.fl
      state := hsame.state
      fault := hsame.fault
      console := hsame.console
      wf := drawScratch_wf wu }

/-- Settles O45: with SP at least 9 the entry succeeds, and its frame lies in the order of its pushes. -/
theorem interruptEntrySavesContext : Obligations.InterruptEntrySavesContext := by
  intro i s p w hpc hsp
  obtain ⟨t, ht⟩ := interruptEntry_ok_of_le (i := i) w hpc (by omega)
  have e := interruptEntry_spec w hsp ht
  refine ⟨t, ht, e.status, e.mask, e.sp, e.pc, fun k hk hp => ?_, e.kept, e.regs, e.fl, e.state, e.fault,
    e.console, e.wf⟩
  match k, hk with
  | 0, _ => exact e.savedStatus hp
  | 1, _ => exact e.savedReg 5 (by decide) (by decide) hp
  | 2, _ => exact e.savedReg 4 (by decide) (by decide) hp
  | 3, _ => exact e.savedReg 3 (by decide) (by decide) hp
  | 4, _ => exact e.savedReg 2 (by decide) (by decide) hp
  | 5, _ => exact e.savedReg 1 (by decide) (by decide) hp
  | 6, _ => exact e.savedReg 0 (by decide) (by decide) hp
  | 7, _ => exact e.savedFl hp
  | 8, _ => exact e.savedPc hp

/-! ### After an entry -/

/-- Settles O48: the entry leaves the mask 0, and the timer step does not write it. -/
theorem noNestingAfterEntry : Obligations.NoNestingAfterEntry := by
  intro i s t u h hmask
  obtain ⟨-, -, -, v, -, -, -, rfl⟩ := interruptEntry_pushes h
  refine intCheck_of_lineTaken_none (lineTaken_of_mask_zero ?_)
  rw [timerStep_reg_other u (by decide), hmask]
  exact enterVector_mask i v

/-- Settles O49: the entry goes to the vector, so that is where the same cycle fetches. -/
theorem handlerRunsInSameCycle : Obligations.HandlerRunsInSameCycle := by
  intro s t i j hs hline h hlen hbytes
  have hpc : t.pc.toNat = 0xF8 + i.val := by
    obtain ⟨-, -, -, u, -, -, -, rfl⟩ := interruptEntry_pushes h
    exact enterVector_pc i u
  refine ⟨hpc, stepRunsDecodedInstruction s t j hs ((intCheck_of_lineTaken_some hline).trans h) ?_⟩
  rw [← hpc] at hlen hbytes
  exact ⟨hlen, hbytes⟩

/-- Settles O50: IRET pops the frame the entry pushed, each byte into what it was pushed from. -/
theorem iretUndoesInterruptEntry : Obligations.IretUndoesInterruptEntry := by
  intro i s t p w h hsp hclear
  have hlt := (s.reg 7).isLt
  have e := interruptEntry_spec w hsp h
  obtain ⟨hpc, -⟩ := interruptEntry_pushes h
  obtain ⟨u, hu, r⟩ := execIret_spec (s := t) (by rw [e.sp]; omega)
  have hread := r.regs
  rw [e.sp] at hread
  refine ⟨u, hu, ?pc, ?fl, fun q hq => ?regs, ?status, r.state.trans e.state, r.fault.trans e.fault,
    r.console.trans e.console, fun a ha hout => ?mem⟩
  case pc =>
    rw [r.pc, e.sp, e.savedPc (by omega)]
    simp only [BitVec.truncate_eq_setWidth]
    bv_omega
  case fl => rw [r.fl, e.sp, e.savedFl (by omega)]
  case regs =>
    by_cases hq7 : q = 7
    · subst hq7
      exact BitVec.eq_of_toNat_eq (by rw [r.sp, e.sp, hsp])
    · rw [hread q hq7, e.savedReg q hq hq7 (by omega)]
  case status => exact (hread 6 (by decide)).trans (e.savedStatus (by omega))
  case mem => rw [r.mem, e.kept a ha hout]

end Sys2Proof.Machine
end
